-- ==== Sys2Proof/Word.lean ====
section
/-! DEFINITION. The bit-vector types of NRE's port: the 32-bit bus word, the 14-bit byte address, the byte strobes and one byte
(20_memory.md R60, R61, R62). -/

namespace Sys2Proof

/-- A 32-bit bus word (00_scope.md R11, 20_memory.md R60); a command word is one too (30_encoding.md R90). -/
abbrev Word := BitVec 32

/-- A byte address of the host port, 14 bits, an offset from NRE_BASE (20_memory.md R62). -/
abbrev Addr := BitVec 14

/-- The write byte strobes; strobe `k` covers bits `8k+7` down to `8k` (20_memory.md R61). -/
abbrev Strobes := BitVec 4

/-- One byte lane of a word (20_memory.md R68). -/
abbrev Byte := BitVec 8

end Sys2Proof
end

