-- ==== Sys2Proof/Syntax.lean ====
section
/-! DEFINITION. The command set NRE-1 as syntax: one constructor for each row of spec/opcode_table.json (30_encoding.md R94). -/

namespace Sys2Proof

/-- A polynomial register index, PR0 to PR7. Every value of the 3-bit field names a register (30_encoding.md R91). -/
abbrev Reg := Fin 8

/-- The modulus a command works with: MSEL = 0 picks P and MSEL = 1 picks Q (30_encoding.md R92). -/
inductive MSel where
  | p
  | q
deriving DecidableEq, Repr

/-- The representative range a command writes: REP = 0 is the symmetric range, REP = 1 the non-negative one (R93). -/
inductive Rep where
  | sym
  | nonneg
deriving DecidableEq, Repr

/-- A legal command, with exactly the fields that 30_encoding.md R94 says it uses. -/
inductive Instr where
  /-- NOP (40_command.md R116). -/
  | nop
  /-- ADD (41_ring_arithmetic.md R133). -/
  | add (msel : MSel) (rep : Rep) (rd ra rb : Reg)
  /-- MUL (41_ring_arithmetic.md R136). -/
  | mul (msel : MSel) (rep : Rep) (rd ra rb : Reg)
  /-- RED (41_ring_arithmetic.md R139). -/
  | red (msel : MSel) (rep : Rep) (rd ra : Reg)
  /-- INV (42_inverse.md R150). -/
  | inv (msel : MSel) (rep : Rep) (rd ra : Reg)
deriving DecidableEq, Repr

end Sys2Proof
end

