-- ==== Sys2Proof/WellFormed.lean ====
section
/-! DEFINITION. When the fields of a command word are well formed: every field fits its width, the operation is defined, and a
field the operation does not use is zero (30_encoding.md R90, R94, R95). -/

namespace Sys2Proof

/-- The six fields of the command format (30_encoding.md R90) as numbers, before they are packed into a word. -/
structure CommandFields where
  op : Nat
  msel : Nat
  rep : Nat
  rd : Nat
  ra : Nat
  rb : Nat
deriving DecidableEq, Repr

namespace CommandFields

/-- OP is 0x0 to 0x4 (R94). -/
def opDefined (f : CommandFields) : Bool := f.op ≤ 4

/-- MSEL and REP are one bit each (R90). -/
def optionsFit (f : CommandFields) : Bool := f.msel ≤ 1 && f.rep ≤ 1

/-- RD, RA and RB are three bits each (R90, R91). -/
def registersFit (f : CommandFields) : Bool := f.rd ≤ 7 && f.ra ≤ 7 && f.rb ≤ 7

/-- A field the command does not use is zero: RB for RED and INV, everything but OP for NOP (R95). -/
def unusedZero (f : CommandFields) : Bool :=
  if f.op = 0 then f.msel = 0 && f.rep = 0 && f.rd = 0 && f.ra = 0 && f.rb = 0
  else if f.op = 3 ∨ f.op = 4 then f.rb = 0
  else true

/-- All the checks together. -/
def wellFormed (f : CommandFields) : Bool :=
  f.opDefined && f.optionsFit && f.registersFit && f.unusedZero

end CommandFields

/-- The MSEL bit (R92). -/
def MSel.bit : MSel → Nat
  | .p => 0
  | .q => 1

/-- The REP bit (R93). -/
def Rep.bit : Rep → Nat
  | .sym => 0
  | .nonneg => 1

/-- The fields of a command, 0 in every field it does not use (R95, R100). -/
def Instr.fields : Instr → CommandFields
  | .nop => { op := 0, msel := 0, rep := 0, rd := 0, ra := 0, rb := 0 }
  | .add m r d a b => { op := 1, msel := m.bit, rep := r.bit, rd := d, ra := a, rb := b }
  | .mul m r d a b => { op := 2, msel := m.bit, rep := r.bit, rd := d, ra := a, rb := b }
  | .red m r d a => { op := 3, msel := m.bit, rep := r.bit, rd := d, ra := a, rb := 0 }
  | .inv m r d a => { op := 4, msel := m.bit, rep := r.bit, rd := d, ra := a, rb := 0 }

/-- A command is well formed when its fields are. -/
abbrev Instr.WellFormed (i : Instr) : Prop := i.fields.wellFormed = true

end Sys2Proof
end

