-- ==== Sys2Proof/Decode.lean ====
section
/-! DEFINITION. The decoder of command words, total on every 32-bit word and rejecting by name, and after it the encoder
(30_encoding.md R90 to R97, R99); the byte lanes of a word (20_memory.md R68). -/

namespace Sys2Proof

/-! ## The opcode table -/

/-- The five operations of the opcode map (R94). -/
inductive Op where
  | nop
  | add
  | mul
  | red
  | inv
deriving DecidableEq, Repr

/-- One row of the table of R95. -/
structure Row where
  op : Op
  pattern : Word
  mask : Word
deriving DecidableEq, Repr

/-- The match/mask pairs of R95 (spec/opcode_table.json holds the same five). -/
def rows : List Row :=
  [ { op := .nop, pattern := 0x00000000, mask := 0xFFFFFFFF },
    { op := .add, pattern := 0x00000001, mask := 0xFFF888CF },
    { op := .mul, pattern := 0x00000002, mask := 0xFFF888CF },
    { op := .red, pattern := 0x00000003, mask := 0xFFFF88CF },
    { op := .inv, pattern := 0x00000004, mask := 0xFFFF88CF } ]

/-- A word is legal under a row when its fixed bits are the row's (R95). -/
def Row.accepts (r : Row) (w : Word) : Bool := w &&& r.mask == r.pattern

/-! ## Decoding -/

/-- The `len` bits of `w` from bit `lo` up, as an unsigned number (00_scope.md R11). -/
def bitField (w : Word) (lo len : Nat) : Nat := (w.extractLsb' lo len).toNat

/-- MSEL = w[4] (R90, R92). -/
def mselOf (w : Word) : MSel := if bitField w 4 1 = 0 then .p else .q

/-- REP = w[5] (R90, R93). -/
def repOf (w : Word) : Rep := if bitField w 5 1 = 0 then .sym else .nonneg

/-- RD = w[10:8] (R90, R91). -/
def rdOf (w : Word) : Reg := Fin.ofNat 8 (bitField w 8 3)

/-- RA = w[14:12] (R90, R91). -/
def raOf (w : Word) : Reg := Fin.ofNat 8 (bitField w 12 3)

/-- RB = w[18:16] (R90, R91). -/
def rbOf (w : Word) : Reg := Fin.ofNat 8 (bitField w 16 3)

/-- The command that an accepted word of the operation stands for: the fields R94 says it uses. -/
def buildInstr (op : Op) (w : Word) : Instr :=
  match op with
  | .nop => .nop
  | .add => .add (mselOf w) (repOf w) (rdOf w) (raOf w) (rbOf w)
  | .mul => .mul (mselOf w) (repOf w) (rdOf w) (raOf w) (rbOf w)
  | .red => .red (mselOf w) (repOf w) (rdOf w) (raOf w)
  | .inv => .inv (mselOf w) (repOf w) (rdOf w) (raOf w)

/-- Why a word is ILLEGAL: the two cases of R97. Both complete with the same code. -/
inductive IllegalWord where
  /-- OP is 0x5 to 0xF, reserved for later command sets (R94, R97). -/
  | reservedOp
  /-- OP is 0x0 to 0x4 with a nonzero reserved or unused bit (R95, R97). -/
  | reservedBits
deriving DecidableEq, Repr

/-- The name of the rejection of a word no row accepts. -/
def illegalReason (w : Word) : IllegalWord :=
  if bitField w 0 4 ≤ 4 then .reservedBits else .reservedOp

/-- `decode(w)` of R96: the one row that accepts the word, or ILLEGAL, by name, when none does. -/
def decode (w : Word) : Except IllegalWord Instr :=
  match rows.find? (fun r => r.accepts w) with
  | some r => .ok (buildInstr r.op w)
  | none => .error (illegalReason w)

/-! ## Encoding -/

/-- Assembling a word from its fields, by the formula of R90. -/
def CommandFields.assemble (f : CommandFields) : Word :=
  BitVec.ofNat 32 f.op ||| BitVec.ofNat 32 f.msel <<< 4 ||| BitVec.ofNat 32 f.rep <<< 5 |||
    BitVec.ofNat 32 f.rd <<< 8 ||| BitVec.ofNat 32 f.ra <<< 12 ||| BitVec.ofNat 32 f.rb <<< 16

/-- The word of a command: 0 in every reserved and unused field (R90, R95, R100). -/
def encode (i : Instr) : Word := i.fields.assemble

/-- The table row of a command. -/
def Instr.row : Instr → Row
  | .nop => { op := .nop, pattern := 0x00000000, mask := 0xFFFFFFFF }
  | .add .. => { op := .add, pattern := 0x00000001, mask := 0xFFF888CF }
  | .mul .. => { op := .mul, pattern := 0x00000002, mask := 0xFFF888CF }
  | .red .. => { op := .red, pattern := 0x00000003, mask := 0xFFFF88CF }
  | .inv .. => { op := .inv, pattern := 0x00000004, mask := 0xFFFF88CF }

/-! ## Byte lanes (20_memory.md R68, log entry 12) -/

/-- Byte lane `k` of a word: bits `8k+7` down to `8k`, at byte address offset `+ k` (R68). -/
def byteLane (w : Word) (k : Nat) : Byte := w.extractLsb' (8 * k) 8

/-- The four bytes of a word as a byte-addressed host stores them, the lowest address first (R68). -/
def bytesOfWord (w : Word) : List Byte := [byteLane w 0, byteLane w 1, byteLane w 2, byteLane w 3]

/-- The word whose lanes are the bytes; none unless there are exactly four, since a command is one whole word (R65, R99). -/
def wordOfBytes : List Byte → Option Word
  | [b0, b1, b2, b3] => some (b3 ++ b2 ++ b1 ++ b0)
  | _ => none

/-- Decoding of a command as a host stores it in bytes; none when the bytes are no command word or the word is ILLEGAL. -/
def decodeBytes (bs : List Byte) : Option Instr :=
  match wordOfBytes bs with
  | some w => (decode w).toOption
  | none => none

/-- The word that a table row's number stands for: `nbits` bits of `w`, every bit above them 0; none if a bit above the one
command word is set (R99). -/
def tableWord (nbits w : Nat) : Option Word :=
  if w % 2 ^ nbits < 2 ^ 32 then some (BitVec.ofNat 32 (w % 2 ^ nbits)) else none

/-- The host's question about the decoder: the word laid out in the lanes of R68, then decoded. -/
def decodeTableWord (nbits w : Nat) : Option Instr :=
  match tableWord nbits w with
  | some x => decodeBytes (bytesOfWord x)
  | none => none

end Sys2Proof
end

