-- ==== Sys2Proof/Config.lean ====
section
/-! DEFINITION. The elaboration parameters of an NRE (00_scope.md R5 to R10) and the platform parameter NRE_BASE
(20_memory.md R62). -/

namespace Sys2Proof

/-- The elaboration parameters: the named model arguments N, P, Q and CW of 00_scope.md R5 to R8. Q is given by its exponent
QE, since R7 requires Q = 2^QE. `State.params` carries one of these through every step unchanged (log entry 1). -/
structure Params where
  /-- N, the ring degree (R5). -/
  n : Nat
  /-- P, the small modulus (R6). -/
  p : Nat
  /-- QE, the exponent of the large modulus Q = 2^QE (R7). -/
  qe : Nat
  /-- CW, the coefficient storage width in bits (R8). -/
  cw : Nat
deriving DecidableEq, Repr

namespace Params

/-- Q, the large modulus (R7). -/
def q (c : Params) : Nat := 2 ^ c.qe

/-- The constraints of R5 to R8. A parameter set that breaks one is not an NRE (R10), and statements take them as a premise
(log entry 7). -/
structure Legal (c : Params) : Prop where
  /-- R5: 1 <= N. -/
  one_le_n : 1 ≤ c.n
  /-- R5: N <= 256. -/
  n_le : c.n ≤ 256
  /-- R6: P is prime. -/
  p_prime : c.p.Prime
  /-- R6: P is odd. -/
  p_odd : c.p % 2 = 1
  /-- R7: Q is larger than P. -/
  p_lt_q : c.p < c.q
  /-- R8: 3 <= CW. -/
  three_le_cw : 3 ≤ c.cw
  /-- R8: CW <= 32. -/
  cw_le : c.cw ≤ 32
  /-- R8: Q <= 2^(CW-1). -/
  q_le : c.q ≤ 2 ^ (c.cw - 1)

/-- The reference parameter set of 00_scope.md: N = 11, P = 3, Q = 32, CW = 16 (D2, D3). -/
def reference : Params := { n := 11, p := 3, qe := 5, cw := 16 }

end Params

/-- NRE_BASE, where the platform places the window (R62): an open parameter that nothing in the model evaluates (log entry 9). -/
opaque Config.nreBase : Nat

/-- The address in the host system's map of an offset of the port (R62). -/
def Config.systemAddress (off : Addr) : Nat := Config.nreBase + off.toNat

end Sys2Proof
end

