-- ==== Sys2Proof/Machine/State.lean ====
section
/-! DEFINITION. The state of an NRE as plain data (10_state.md section 5), the events that reach it, the reasons a step can stop,
and the state after reset (70_reset_and_hazards.md R190). -/

namespace Sys2Proof.Machine

/-- A polynomial: the coefficients in order, index = exponent (00_scope.md R12). That a register holds exactly N of them, each
in the CW-bit signed range (10_state.md R30), is an invariant of every step (log entry 5). -/
abbrev Poly := List Int

/-- The modulus tag of a register (10_state.md R33). Value 3 is never produced and has no constructor (log entry 6). -/
inductive Tag where
  /-- 0: last written by the host (or at reset); not known to be reduced. -/
  | raw
  /-- 1: last written by a command with MSEL = 0. -/
  | modp
  /-- 2: last written by a command with MSEL = 1. -/
  | modq
deriving DecidableEq, Repr

/-- The completion code of STATUS.ERR (60_exceptions.md R170). Value 3 is never produced and has no constructor (log entry 6). -/
inductive Code where
  /-- 0: the command performed its operation. -/
  | ok
  /-- 1: the word decodes as ILLEGAL (R171). -/
  | illegal
  /-- 2: INV found no inverse (R172). -/
  | noinv
deriving DecidableEq, Repr

/-- A transaction the host presents on the port (20_memory.md R60, R61). -/
inductive Txn where
  | read (addr : Addr)
  | write (addr : Addr) (strb : Strobes) (wdata : Word)
deriving DecidableEq, Repr

/-- What the port answers in a transaction (20_memory.md R60): `(rdata, err)` for a read, `err` for a write. -/
inductive Response where
  | read (rdata : Word) (err : Bool)
  | write (err : Bool)
deriving DecidableEq, Repr

/-- One event of the stream of 20_memory.md R72: a host transaction, the engine's turn (40_command.md R110), or an assertion of
reset (70_reset_and_hazards.md R190). The list of them fixes one interleaving of the agents (log entry 2). -/
inductive Event where
  | host (t : Txn)
  | engine
  | reset
deriving DecidableEq, Repr

/-- The state of an NRE (10_state.md section 5), with the elaboration parameters and two fields of the model's own. -/
structure State where
  /-- N, P, Q and CW, constant over every run (log entry 1). -/
  params : Params
  /-- PR0 to PR7 (10_state.md R30). -/
  pr : Vector Poly 8
  /-- TAG[0] to TAG[7] (10_state.md R33). -/
  tags : Vector Tag 8
  /-- CTRL.IE (10_state.md R46). -/
  ie : Bool
  /-- STATUS.BUSY (10_state.md R47). -/
  busy : Bool
  /-- STATUS.DONE (10_state.md R47). -/
  done : Bool
  /-- STATUS.ERR (10_state.md R47). -/
  err : Code
  /-- CMD, the last accepted command word, whole (10_state.md R49). -/
  cmd : Word
  /-- The model's own: the events still to come, first event first (log entry 2). -/
  stream : List Event
  /-- The model's own: the port's response in the step just taken, none if it was no transaction (log entry 3). -/
  resp : Option Response
deriving DecidableEq, Repr

/-- The reasons the machine stops. There are none: NRE has no traps (60_exceptions.md R178), a command's failure is a completion
code and a transaction's failure an error response, and both are next states (log entry 11). -/
inductive Fault where
deriving DecidableEq, Repr

/-- The reasons a step is refused. -/
inductive Refusal where
  /-- Raised by an arm of `exec` whose instruction has no meaning yet; safe. No arm raises it in this model. -/
  | notModelled (mnemonic : String)
deriving DecidableEq, Repr

/-- The state that reset leaves an NRE of the given parameters in (70_reset_and_hazards.md R190): every coefficient 0, every tag
RAW, CTRL, STATUS and CMD 0. No event is pending and no response is shown (log entries 2, 3). -/
def State.resetWith (c : Params) : State where
  params := c
  pr := Vector.replicate 8 (List.replicate c.n 0)
  tags := Vector.replicate 8 .raw
  ie := false
  busy := false
  done := false
  err := .ok
  cmd := 0x00000000
  stream := []
  resp := none

/-- The machine right after reset, at the spec's reference parameter set (log entry 1). -/
def State.reset : State := State.resetWith Params.reference

end Sys2Proof.Machine
end

