-- ==== Sys2Proof/Machine/Operands.lean ====
section
/-! DEFINITION. The operands of commands and their arithmetic over exact integers: the modulus, canonical reduction, addition,
cyclic convolution (41_ring_arithmetic.md R130 to R136, R139), and the conversion of a coefficient at the port
(20_memory.md R66, R67). -/

namespace Sys2Proof.Machine

/-- `modsel(MSEL)`: P or Q (30_encoding.md R92). -/
def modsel (c : Params) : MSel → Nat
  | .p => c.p
  | .q => c.q

/-- Coefficient `i` of a polynomial (00_scope.md R12). -/
def coef (a : Poly) (i : Nat) : Int := a.getD i 0

/-- The polynomial of degree below `n` with the given coefficients. -/
def polyOf (n : Nat) (f : Nat → Int) : Poly := (List.range n).map f

/-- `ZERO`, every coefficient 0 (00_scope.md R12). -/
def zeroPoly (n : Nat) : Poly := polyOf n fun _ => 0

/-- `ONE`, coefficient 1 at index 0 and 0 elsewhere (00_scope.md R12). -/
def onePoly (n : Nat) : Poly := polyOf n fun i => if i = 0 then 1 else 0

/-- `reduce(x, m, rep)`, the canonical representative modulo m (41_ring_arithmetic.md R130). Integer `%` by a positive modulus
is the floor remainder of 00_scope.md R11. -/
def reduce (x : Int) (m : Nat) (rep : Rep) : Int :=
  let r := x % (m : Int)
  match rep with
  | .sym => if 2 * r > (m : Int) then r - (m : Int) else r
  | .nonneg => r

/-- `reduce` applied to every coefficient (41_ring_arithmetic.md R130). -/
def reducePoly (n : Nat) (a : Poly) (m : Nat) (rep : Rep) : Poly :=
  polyOf n fun i => reduce (coef a i) m rep

/-- The exact coefficient-wise sum (41_ring_arithmetic.md R132, R133). -/
def sumPoly (n : Nat) (a b : Poly) : Poly := polyOf n fun i => coef a i + coef b i

/-- Coefficient `i` of the cyclic convolution, over the integers (41_ring_arithmetic.md R131). The index `(i + n - j) % n` is
`(i - j) mod N` for `i, j` below N. -/
def convCoef (n : Nat) (a b : Poly) (i : Nat) : Int :=
  ((List.range n).map fun j => coef a j * coef b ((i + n - j) % n)).sum

/-- `conv(a, b)`, the product in Z[x]/(x^N - 1) (41_ring_arithmetic.md R131). -/
def conv (n : Nat) (a b : Poly) : Poly := polyOf n (convCoef n a b)

/-- `add_m(a, b)` (41_ring_arithmetic.md R133). -/
def addMod (n : Nat) (a b : Poly) (m : Nat) (rep : Rep) : Poly := reducePoly n (sumPoly n a b) m rep

/-- `mul_m(a, b)` (41_ring_arithmetic.md R136). -/
def mulMod (n : Nat) (a b : Poly) (m : Nat) (rep : Rep) : Poly := reducePoly n (conv n a b) m rep

/-- `red_m(a)` (41_ring_arithmetic.md R139). -/
def redMod (n : Nat) (a : Poly) (m : Nat) (rep : Rep) : Poly := reducePoly n a m rep

/-- `sext_W(v)`: the low `w` bits of a number, read as a `w`-bit two's complement integer (00_scope.md R11). -/
def sext (w : Nat) (v : Nat) : Int :=
  let u := v % 2 ^ w
  if 2 * u ≥ 2 ^ w then (u : Int) - ((2 ^ w : Nat) : Int) else (u : Int)

/-- What a coefficient write stores: the low CW bits, sign extended; the bits above are ignored (20_memory.md R66). -/
def coefOfWord (c : Params) (v : Word) : Int := sext c.cw v.toNat

/-- What a coefficient read returns: the coefficient sign extended to 32 bits, modulo 2^32 (20_memory.md R67). -/
def wordOfCoef (x : Int) : Word := BitVec.ofInt 32 x

end Sys2Proof.Machine
end

