-- ==== Sys2Proof/Machine/Galois.lean ====
section
/-! DEFINITION. The inverse of a polynomial modulo a prime by the extended Euclidean algorithm over GF(p)[x] (42_inverse.md R153)
and modulo Q by inversion modulo 2 and Hensel lifting (R155). Only the value is normative (R157, log entry 8). -/

namespace Sys2Proof.Machine

/-! ## Polynomials over GF(p)

A polynomial of any degree is the list of its coefficients below `p`, lowest degree first; it is trimmed when its last
coefficient is not 0, so a trimmed polynomial of length `d + 1` has degree `d` and the empty list is 0. -/

/-- A polynomial over GF(p). -/
abbrev GPoly := List Nat

/-- The same polynomial without leading zeros. -/
def gtrim : GPoly → GPoly
  | [] => []
  | c :: cs =>
    match gtrim cs with
    | [] => if c = 0 then [] else [c]
    | d :: ds => c :: d :: ds

/-- Coefficient of x^i. -/
def gcoef (a : GPoly) (i : Nat) : Nat := a.getD i 0

/-- The leading coefficient of a trimmed polynomial. -/
def glead (a : GPoly) : Nat := a.getLastD 0

/-- The sum. -/
def gadd (p : Nat) : GPoly → GPoly → GPoly
  | [], b => b
  | a, [] => a
  | x :: xs, y :: ys => (x + y) % p :: gadd p xs ys

/-- The product with a constant. -/
def gscale (p c : Nat) (a : GPoly) : GPoly := a.map fun x => c * x % p

/-- The difference: adding `p - 1`, which is -1, times the second. -/
def gsub (p : Nat) (a b : GPoly) : GPoly := gadd p a (gscale p (p - 1) b)

/-- The product with x^k. -/
def gshift (k : Nat) (a : GPoly) : GPoly := List.replicate k 0 ++ a

/-- The product. -/
def gmul (p : Nat) : GPoly → GPoly → GPoly
  | [], _ => []
  | x :: xs, b => gadd p (gscale p x b) (0 :: gmul p xs b)

/-- `b^e mod m` for `e < 2^fuel`, by squaring. -/
def powMod (b m : Nat) : Nat → Nat → Nat
  | 0, _ => 1 % m
  | fuel + 1, e =>
    let h := powMod b m fuel (e / 2)
    if e % 2 = 1 then h * h % m * b % m else h * h % m

/-- The Fermat inverse `c^(p-2) mod p` (R153); P < Q <= 2^31, so 32 squarings are enough. -/
def finv (p c : Nat) : Nat := powMod c p 32 (p - 2)

/-- Polynomial long division by `b`, whose leading coefficient has the inverse `li`: one pass takes the leading term off the
remainder. It returns the quotient and the remainder (`divmod` of R153). -/
def gdivLoop (p li : Nat) (b : GPoly) : Nat → GPoly → GPoly → GPoly × GPoly
  | 0, q, r => (q, r)
  | fuel + 1, q, r =>
    if r.length < b.length then (q, r)
    else
      let k := r.length - b.length
      let c := glead r * li % p
      gdivLoop p li b fuel (gadd p q (gshift k [c])) (gtrim (gsub p r (gshift k (gscale p c b))))

/-- `divmod(a, b)` in GF(p)[x], for trimmed polynomials and b not 0 (R153). -/
def gdivmod (p : Nat) (a b : GPoly) : GPoly × GPoly :=
  gdivLoop p (finv p (glead b)) b (a.length + 1) [] a

/-! ## Inversion modulo a prime (R153) -/

/-- The loop of R153: `(r0, r1) <- (r1, rm)` and `(t0, t1) <- (t1, t0 - qt*t1)` until r1 is 0; it returns r0 and t0. -/
def euclidLoop (p : Nat) : Nat → GPoly → GPoly → GPoly → GPoly → GPoly × GPoly
  | 0, r0, _, t0, _ => (r0, t0)
  | fuel + 1, r0, r1, t0, t1 =>
    match r1 with
    | [] => (r0, t0)
    | c :: cs =>
      let d := gdivmod p r0 (c :: cs)
      euclidLoop p fuel (c :: cs) d.2 t1 (gsub p t0 (gmul p d.1 t1))

/-- The modulus polynomial x^n - 1 over GF(p): `p - 1` at x^0 and 1 at x^n (R153). -/
def cyclicModulus (n p : Nat) : GPoly := (p - 1) :: (List.replicate (n - 1) 0 ++ [1])

/-- The class of `a` modulo p as a polynomial over GF(p) (R153). -/
def residuePoly (n p : Nat) (a : Poly) : GPoly :=
  gtrim ((List.range n).map fun i => (coef a i % (p : Int)).toNat)

/-- `inv_prime(a, p)` of R153; the loop takes at most N + 1 passes (R156). -/
def invPrime (n p : Nat) (a : Poly) : Option Poly :=
  let e := euclidLoop p (n + 1) (cyclicModulus n p) (residuePoly n p a) [] [1]
  match e.1 with
  | [c] => some (polyOf n fun i => ((gcoef e.2 i * finv p c % p : Nat) : Int))
  | _ => none

/-! ## Inversion modulo a power of two (R155) -/

/-- One lifting step, `b·(2 − a·b) mod k` (R155). -/
def liftStep (n : Nat) (a b : Poly) (k : Nat) : Poly :=
  reducePoly n (conv n b (polyOf n fun i => coef (polyOf n fun j => 2 * coef (onePoly n) j) i - coef (conv n a b) i)) k .nonneg

/-- The lifting loop of R155: the modulus is squared, capped at `q`, until it is `q`. -/
def liftLoop (n q : Nat) (a : Poly) : Nat → Nat → Poly → Poly
  | 0, _, b => b
  | fuel + 1, k, b =>
    if k < q then liftLoop n q a fuel (min (k * k) q) (liftStep n a b (min (k * k) q)) else b

/-- `inv_pow2(a, 2^qe)` of R155; it takes ceil(log2 QE) lifting steps, so fewer than QE (R156). -/
def invPow2 (n qe : Nat) (a : Poly) : Option Poly :=
  match invPrime n 2 a with
  | none => none
  | some b => some (liftLoop n (2 ^ qe) a qe 2 b)

/-- `inv_m(a)` (42_inverse.md R150). -/
def invMod (c : Params) (m : MSel) (a : Poly) : Option Poly :=
  match m with
  | .p => invPrime c.n c.p a
  | .q => invPow2 c.n c.qe a

end Sys2Proof.Machine
end

