-- ==== Sys2Proof/Machine/Flags.lean ====
section
/-! DEFINITION. The control, status and configuration words as the host reads them, and the interrupt line
(10_state.md R41 to R50, 60_exceptions.md R170, R175). NRE has no condition codes (10_state.md R39). -/

namespace Sys2Proof.Machine

/-- A flag as a number. -/
def bit (b : Bool) : Nat := if b then 1 else 0

/-- The number of a completion code (60_exceptions.md R170). -/
def Code.value : Code → Nat
  | .ok => 0
  | .illegal => 1
  | .noinv => 2

/-- The number of a tag (10_state.md R33). -/
def Tag.value : Tag → Nat
  | .raw => 0
  | .modp => 1
  | .modq => 2

/-- `1 + MSEL`, the tag of a result (10_state.md R34). -/
def tagOf : MSel → Tag
  | .p => .modp
  | .q => .modq

/-- ID, the hardwired identification constant, "NRE1" (10_state.md R41). -/
def idWord : Word := 0x4E524531

/-- CFG_N: N in bits 8:0 (10_state.md R42). -/
def cfgNWord (c : Params) : Word := BitVec.ofNat 32 (c.n % 2 ^ 9)

/-- CFG_P: P (10_state.md R43). -/
def cfgPWord (c : Params) : Word := BitVec.ofNat 32 c.p

/-- CFG_Q: Q (10_state.md R44). -/
def cfgQWord (c : Params) : Word := BitVec.ofNat 32 c.q

/-- CFG_W: CW in bits 5:0 and NPR = 8 in bits 11:8 (10_state.md R45). -/
def cfgWWord (c : Params) : Word := BitVec.ofNat 32 (c.cw % 2 ^ 6) ||| BitVec.ofNat 32 8 <<< 8

/-- CTRL: IE in bit 0, the rest reserved and 0 (10_state.md R46). -/
def ctrlWord (s : State) : Word := BitVec.ofNat 32 (bit s.ie)

/-- STATUS: BUSY in bit 0, DONE in bit 1, ERR in bits 5:4, the rest reserved and 0 (10_state.md R47). -/
def statusWord (s : State) : Word :=
  BitVec.ofNat 32 (bit s.busy) ||| BitVec.ofNat 32 (bit s.done) <<< 1 ||| BitVec.ofNat 32 s.err.value <<< 4

/-- TAGS: TAG[r] in bits 2r+1:2r, bits 31:16 are 0 (10_state.md R50). -/
def tagsWord (s : State) : Word :=
  BitVec.ofNat 32 (((List.range 8).map fun r => (s.tags[r]?.getD .raw).value * 4 ^ r).sum)

/-- The completion interrupt line, `irq = CTRL.IE and STATUS.DONE`, level, active high (60_exceptions.md R175). -/
def irq (s : State) : Bool := s.ie && s.done

end Sys2Proof.Machine
end

