-- ==== Sys2Proof/Machine/Ops.lean ====
section
/-! DEFINITION. The named operations over the state: the polynomial registers and tags, the issue and the completion of a command
(40_command.md R111 to R113), the host port (20_memory.md R60 to R70) and the events that are no command. -/

namespace Sys2Proof.Machine

/-! ## Registers and tags -/

/-- `PR[r]` (00_scope.md R13). -/
def State.reg (s : State) (r : Reg) : Poly := s.pr[r.val]'r.isLt

/-- `PR[r] <- v`, every coefficient at once (00_scope.md R13, 10_state.md R31). -/
def State.setReg (s : State) (r : Reg) (v : Poly) : State := { s with pr := s.pr.set r.val v r.isLt }

/-- `TAG[r]` (00_scope.md R13). -/
def State.tag (s : State) (r : Reg) : Tag := s.tags[r.val]'r.isLt

/-- `TAG[r] <- t` (00_scope.md R13). -/
def State.setTag (s : State) (r : Reg) (t : Tag) : State := { s with tags := s.tags.set r.val t r.isLt }

/-! ## Issue and completion of a command -/

/-- Command acceptance (40_command.md R111): the whole word is kept, BUSY is set and DONE cleared; nothing else changes. -/
def acceptCommand (v : Word) (s : State) : State := { s with cmd := v, busy := true, done := false }

/-- What `execute` returns (40_command.md R114): a code and, for OK of a command with a destination, the value. -/
inductive Completion where
  /-- OK with nothing to write: NOP. -/
  | okNothing
  /-- OK with the value of the destination register. -/
  | okWrite (rd : Reg) (msel : MSel) (res : Poly)
  /-- The word decodes as ILLEGAL (60_exceptions.md R171). -/
  | illegal
  /-- INV found no inverse (60_exceptions.md R172). -/
  | noinv
deriving DecidableEq, Repr

/-- The completion code of a completion (60_exceptions.md R170). -/
def Completion.code : Completion → Code
  | .okNothing => .ok
  | .okWrite .. => .ok
  | .illegal => .illegal
  | .noinv => .noinv

/-- The destination write of a completion: PR[RD] and TAG[RD] on OK, nothing with any other code (40_command.md R113). -/
def Completion.writeDest (c : Completion) (s : State) : State :=
  match c with
  | .okWrite rd msel res => (s.setReg rd res).setTag rd (tagOf msel)
  | .okNothing => s
  | .illegal => s
  | .noinv => s

/-- The completion step (40_command.md R113), `complete(code)` of 00_scope.md R13: the destination is written, BUSY falls, DONE
rises, ERR holds the code, all in one step. It is the only form of exception NRE takes (60_exceptions.md R178); the interrupt
line follows from DONE (R175). -/
def complete (c : Completion) (s : State) : State :=
  { c.writeDest s with busy := false, done := true, err := c.code }

/-- The completion of a word that decodes as ILLEGAL (40_command.md R114, 30_encoding.md R97, 60_exceptions.md R171). -/
def completeIllegal (s : State) : State := complete .illegal s

/-! ## The host port -/

/-- What an aligned address names (20_memory.md R63, 10_state.md R40). -/
inductive Target where
  | id
  | cfgN
  | cfgP
  | cfgQ
  | cfgW
  | ctrl
  | status
  | cmd
  | tags
  | coef (r : Reg) (i : Nat)
  | unmapped
deriving DecidableEq, Repr

/-- The control and status registers of 10_state.md R40. -/
def csrTarget (off : Nat) : Target :=
  if off = 0x000 then .id
  else if off = 0x004 then .cfgN
  else if off = 0x008 then .cfgP
  else if off = 0x00C then .cfgQ
  else if off = 0x010 then .cfgW
  else if off = 0x014 then .ctrl
  else if off = 0x018 then .status
  else if off = 0x01C then .cmd
  else if off = 0x020 then .tags
  else .unmapped

/-- The coefficient windows: `r = (a - 0x1000)[12:10]`, `i = (a - 0x1000)[9:2]`, mapped when i < N (20_memory.md R63). -/
def windowTarget (n off : Nat) : Target :=
  let d := off - 0x1000
  let i := d / 4 % 256
  if i < n then .coef (Fin.ofNat 8 (d / 1024)) i else .unmapped

/-- The address map of 20_memory.md R63, for a word-aligned address of an NRE with ring degree `n`. -/
def target (n : Nat) (a : Addr) : Target :=
  if a.toNat < 0x1000 then csrTarget a.toNat
  else if a.toNat < 0x3000 then windowTarget n a.toNat
  else .unmapped

/-- Word alignment, `addr[1:0] = 0` (20_memory.md R65). -/
def aligned (a : Addr) : Bool := a.toNat % 4 == 0

/-- The error response of a read: read data 0 and err (20_memory.md R60). -/
def readError : Word × Bool := (0x00000000, true)

/-- A read without error. -/
def readOk (v : Word) : Word × Bool := (v, false)

/-- A coefficient read: refused while BUSY (20_memory.md R67, R70). -/
def readCoef (s : State) (r : Reg) (i : Nat) : Word × Bool :=
  if s.busy then readError else readOk (wordOfCoef (Machine.coef (s.reg r) i))

/-- `MemRead(addr, 4)` (20_memory.md R60, R64, R65, 10_state.md R41 to R51). It has no side effect (R69). -/
def memRead (s : State) (a : Addr) : Word × Bool :=
  if aligned a then
    match target s.params.n a with
    | .id => readOk idWord
    | .cfgN => readOk (cfgNWord s.params)
    | .cfgP => readOk (cfgPWord s.params)
    | .cfgQ => readOk (cfgQWord s.params)
    | .cfgW => readOk (cfgWWord s.params)
    | .ctrl => readOk (ctrlWord s)
    | .status => readOk (statusWord s)
    | .cmd => readOk s.cmd
    | .tags => readOk (tagsWord s)
    | .coef r i => readCoef s r i
    | .unmapped => readError
  else readError

/-- A write to CTRL: IE <- wdata[0], the rest ignored (10_state.md R46). -/
def writeCtrl (v : Word) (s : State) : State := { s with ie := v.getLsbD 0 }

/-- A write to STATUS: 1 in bit 1 clears DONE, everything else is ignored (10_state.md R48). -/
def writeStatus (v : Word) (s : State) : State := { s with done := s.done && !v.getLsbD 1 }

/-- A coefficient write to an idle NRE: the coefficient is stored, the tag becomes RAW (20_memory.md R66). -/
def writeCoef (r : Reg) (i : Nat) (v : Word) (s : State) : State :=
  (s.setReg r ((s.reg r).set i (coefOfWord s.params v))).setTag r .raw

/-- The error response of a write: no state changes (20_memory.md R60). -/
def writeError (s : State) : State × Bool := (s, true)

/-- A write without error. -/
def writeOk (s : State) : State × Bool := (s, false)

/-- `MemWrite(addr, 4, v)` with byte strobes (20_memory.md R60, R64 to R66, R70; 10_state.md R46, R48, R49, R51;
40_command.md R111, R112). -/
def memWrite (s : State) (a : Addr) (strb : Strobes) (v : Word) : State × Bool :=
  if aligned a && strb == 0b1111 then
    match target s.params.n a with
    | .id => writeError s
    | .cfgN => writeError s
    | .cfgP => writeError s
    | .cfgQ => writeError s
    | .cfgW => writeError s
    | .ctrl => writeOk (writeCtrl v s)
    | .status => writeOk (writeStatus v s)
    | .cmd => if s.busy then writeError s else writeOk (acceptCommand v s)
    | .tags => writeError s
    | .coef r i => if s.busy then writeError s else writeOk (writeCoef r i v s)
    | .unmapped => writeError s
  else writeError s

/-- The read data the port drives beside a response, where the spec gives it: a read's data, and 0 beside any error response
(20_memory.md R60); it says nothing of the data beside an accepted write (log entry 13). -/
def Response.rdata : Response → Option Word
  | .read d _ => some d
  | .write true => some 0x00000000
  | .write false => none

/-- The error bit of a response (20_memory.md R60). -/
def Response.err : Response → Bool
  | .read _ e => e
  | .write e => e

/-! ## Events -/

/-- One transaction, atomic (20_memory.md R60, R71): its effect on the state, and the port's response. -/
def transact (t : Txn) (s : State) : State :=
  match t with
  | .read a => { s with resp := some (.read (memRead s a).1 (memRead s a).2) }
  | .write a strb v => { (memWrite s a strb v).1 with resp := some (.write (memWrite s a strb v).2) }

/-- A step in which the port shows no response (log entry 3). -/
def noResponse (s : State) : State := { s with resp := none }

/-- Reset (70_reset_and_hazards.md R190, R191): the reset state of the same NRE; a command in flight is abandoned. The events
still to come are the outside world's and stay (log entry 10). -/
def resetEvent (s : State) : State := { State.resetWith s.params with stream := s.stream }

end Sys2Proof.Machine
end

