-- ==== Sys2Proof/Machine/Inverse.lean ====
section
/-! DEFINITION. The meaning of INV (42_inverse.md R150). -/

namespace Sys2Proof.Machine

/-- What INV's `execute` returns: the inverse in the chosen range, or NOINV (R150, 60_exceptions.md R172). -/
def invCompletion (c : Params) (m : MSel) (rep : Rep) (rd : Reg) (a : Poly) : Completion :=
  match invMod c m a with
  | none => .noinv
  | some b => .okWrite rd m (reducePoly c.n b (modsel c m) rep)

/-- INV: `PR[RD] <- reduce(inv_m(PR[RA]))`, or code NOINV and nothing written (R150). -/
def execInv (m : MSel) (rep : Rep) (rd ra : Reg) (s : State) : Host.Outcome State Fault Refusal :=
  .next (complete (invCompletion s.params m rep rd (s.reg ra)) s)

end Sys2Proof.Machine
end

