-- ==== Sys2Proof/Machine/Nop.lean ====
section
/-! DEFINITION. The meaning of NOP (40_command.md R116): the completion step of a command that writes no register. -/

namespace Sys2Proof.Machine

/-- NOP completes with OK and writes no register and no tag (R116). -/
def execNop (s : State) : Host.Outcome State Fault Refusal := .next (complete .okNothing s)

end Sys2Proof.Machine
end

