-- ==== Sys2Proof/Machine/RingArithmetic.lean ====
section
/-! DEFINITION. The meanings of ADD, MUL and RED (41_ring_arithmetic.md R133, R136, R139). The sources are read from the state
before the completion step, so a destination may be a source too (40_command.md R115). -/

namespace Sys2Proof.Machine

/-- ADD: `PR[RD] <- add_m(PR[RA], PR[RB])` (R133). -/
def execAdd (m : MSel) (rep : Rep) (rd ra rb : Reg) (s : State) : Host.Outcome State Fault Refusal :=
  .next (complete (.okWrite rd m (addMod s.params.n (s.reg ra) (s.reg rb) (modsel s.params m) rep)) s)

/-- MUL: `PR[RD] <- mul_m(PR[RA], PR[RB])` (R136). -/
def execMul (m : MSel) (rep : Rep) (rd ra rb : Reg) (s : State) : Host.Outcome State Fault Refusal :=
  .next (complete (.okWrite rd m (mulMod s.params.n (s.reg ra) (s.reg rb) (modsel s.params m) rep)) s)

/-- RED: `PR[RD] <- red_m(PR[RA])` (R139). -/
def execRed (m : MSel) (rep : Rep) (rd ra : Reg) (s : State) : Host.Outcome State Fault Refusal :=
  .next (complete (.okWrite rd m (redMod s.params.n (s.reg ra) (modsel s.params m) rep)) s)

end Sys2Proof.Machine
end

