-- ==== Sys2Proof/Machine/Dispatch.lean ====
section
/-! DEFINITION. One arm for each command of the set: its completion step (40_command.md R113, R114). -/

namespace Sys2Proof.Machine

def exec (i : Instr) (s : State) : Host.Outcome State Fault Refusal :=
  match i with
  | .nop => Sys2Proof.Machine.execNop s
  | .add m rep rd ra rb => Sys2Proof.Machine.execAdd m rep rd ra rb s
  | .mul m rep rd ra rb => Sys2Proof.Machine.execMul m rep rd ra rb s
  | .red m rep rd ra => Sys2Proof.Machine.execRed m rep rd ra s
  | .inv m rep rd ra => Sys2Proof.Machine.execInv m rep rd ra s

end Sys2Proof.Machine
end

