-- ==== Sys2Proof/Machine/Step.lean ====
section
/-! DEFINITION. One step of the machine: the next event of the stream (20_memory.md R72, 40_command.md R110). -/

namespace Sys2Proof.Machine

/-- The completion of the command in CMD: it is decoded here, not at acceptance (40_command.md R113, R114). -/
def runCommand (s : State) : Host.Outcome State Fault Refusal :=
  match decode s.cmd with
  | .ok i => exec i s
  | .error _ => .next (completeIllegal s)

/-- The engine's turn. Its one step, the completion step, is enabled exactly when BUSY = 1 (40_command.md R110, R113); otherwise
nothing happens. -/
def engineTurn (s : State) : Host.Outcome State Fault Refusal :=
  if s.busy then runCommand (noResponse s) else .next (noResponse s)

/-- One event. When the outside world presents nothing more, the engine has its turn, so a command in flight always completes
(40_command.md R117; log entry 2), and an idle NRE stays as it is (60_exceptions.md R186). -/
def step (s : State) : Host.Outcome State Fault Refusal :=
  match s.stream with
  | [] => engineTurn s
  | .host t :: rest => .next (transact t { s with stream := rest })
  | .engine :: rest => engineTurn { s with stream := rest }
  | .reset :: rest => .next (resetEvent { s with stream := rest })

/-- The state in which the very next step runs the command whose word the table numbers `w`: the word has been accepted
(40_command.md R111) and the engine has the next turn (log entry 4). A number that is no command word changes nothing. -/
def State.withFetchWord (s : State) (nbits w : Nat) : State :=
  match tableWord nbits w with
  | some x => { acceptCommand x s with stream := .engine :: s.stream }
  | none => s

end Sys2Proof.Machine
end

