-- ==== Sys2Proof/Machine/Assembler.lean ====
section
/-! DEFINITION. The assembler syntax of commands and the pseudo-instructions (30_encoding.md R100, R101). It is a notation: the
machine never reads it. -/

namespace Sys2Proof.Assembler

/-! ## Pseudo-instructions (R101): each is exactly one command -/

/-- `sqr.<m>[.<r>] PRd, PRa`. -/
def sqr (m : MSel) (rep : Rep) (rd ra : Reg) : Instr := .mul m rep rd ra ra

/-- `dbl.<m>[.<r>] PRd, PRa`. -/
def dbl (m : MSel) (rep : Rep) (rd ra : Reg) : Instr := .add m rep rd ra ra

/-- `canon.<m>[.<r>] PRd, PRa`. -/
def canon (m : MSel) (rep : Rep) (rd ra : Reg) : Instr := .red m rep rd ra

/-! ## Writing a command as text -/

/-- `<m>`: `p` or `q` (R100). -/
def mselText : MSel → String
  | .p => ".p"
  | .q => ".q"

/-- `<r>`: the default `s` is left out (R100). -/
def repText : Rep → String
  | .sym => ""
  | .nonneg => ".u"

/-- `PR0` to `PR7` (R100). -/
def regText (r : Reg) : String := "PR" ++ String.ofList [Char.ofNat (48 + r.val)]

/-- The canonical spelling of a legal command (R100). -/
def instrText : Instr → String
  | .nop => "nop"
  | .add m r d a b => "add" ++ mselText m ++ repText r ++ " " ++ regText d ++ ", " ++ regText a ++ ", " ++ regText b
  | .mul m r d a b => "mul" ++ mselText m ++ repText r ++ " " ++ regText d ++ ", " ++ regText a ++ ", " ++ regText b
  | .red m r d a => "red" ++ mselText m ++ repText r ++ " " ++ regText d ++ ", " ++ regText a
  | .inv m r d a => "inv" ++ mselText m ++ repText r ++ " " ++ regText d ++ ", " ++ regText a

/-- A hexadecimal digit. -/
def hexDigit (d : Nat) : Char := if d < 10 then Char.ofNat (48 + d) else Char.ofNat (55 + d)

/-- The eight hexadecimal digits of a word, most significant first. -/
def hexText (w : Word) : String :=
  String.ofList ((List.range 8).map fun k => hexDigit (bitField w (4 * (7 - k)) 4))

/-- The spelling of any word: an illegal word is `.word 0x<hex>` (R100). -/
def wordText (w : Word) : String :=
  match decode w with
  | .ok i => instrText i
  | .error _ => ".word 0x" ++ hexText w

/-! ## Reading a command from text: case is ignored, spaces around operands are too (log entry 14) -/

/-- A list of characters cut at every `c`. -/
def cutAt (c : Char) : List Char → List (List Char)
  | [] => [[]]
  | x :: xs =>
    if x = c then [] :: cutAt c xs
    else
      match cutAt c xs with
      | [] => [[x]]
      | w :: ws => (x :: w) :: ws

/-- The characters without the spaces around them. -/
def trimSpaces (cs : List Char) : List Char :=
  ((cs.dropWhile (· = ' ')).reverse.dropWhile (· = ' ')).reverse

/-- `PR0` to `PR7`, in lower case. -/
def readReg : List Char → Option Reg
  | ['p', 'r', d] => if 48 ≤ d.toNat ∧ d.toNat ≤ 55 then some (Fin.ofNat 8 (d.toNat - 48)) else none
  | _ => none

/-- `<m>`, required (R100). -/
def readMSel : List Char → Option MSel
  | ['p'] => some .p
  | ['q'] => some .q
  | _ => none

/-- `<r>` (R100). -/
def readRep : List Char → Option Rep
  | ['s'] => some .sym
  | ['u'] => some .nonneg
  | _ => none

/-- `.<m>[.<r>]`, with `<r>` defaulting to `s` (R100). -/
def readOptions : List (List Char) → Option (MSel × Rep)
  | [m] => (readMSel m).map fun x => (x, .sym)
  | [m, r] => (readMSel m).bind fun x => (readRep r).map fun y => (x, y)
  | _ => none

/-- The names of the commands and pseudo-instructions with options and registers (R100, R101). -/
def buildText (name : String) (m : MSel) (rep : Rep) (regs : List Reg) : Option Instr :=
  match name, regs with
  | "add", [d, a, b] => some (.add m rep d a b)
  | "mul", [d, a, b] => some (.mul m rep d a b)
  | "red", [d, a] => some (.red m rep d a)
  | "inv", [d, a] => some (.inv m rep d a)
  | "sqr", [d, a] => some (sqr m rep d a)
  | "dbl", [d, a] => some (dbl m rep d a)
  | "canon", [d, a] => some (canon m rep d a)
  | _, _ => none

/-- The registers of an operand list; none if one of them is no register. -/
def readRegs : List (List Char) → Option (List Reg)
  | [] => some []
  | x :: xs => (readReg (trimSpaces x)).bind fun r => (readRegs xs).map fun rs => r :: rs

/-- The value of a hexadecimal digit in lower case. -/
def hexValue (c : Char) : Option Nat :=
  if 48 ≤ c.toNat ∧ c.toNat ≤ 57 then some (c.toNat - 48)
  else if 97 ≤ c.toNat ∧ c.toNat ≤ 102 then some (c.toNat - 87)
  else none

/-- The value of hexadecimal digits, `acc` standing before them. -/
def hexNumber (acc : Nat) : List Char → Option Nat
  | [] => some acc
  | c :: cs => (hexValue c).bind fun d => hexNumber (16 * acc + d) cs

/-- `0x<hex>`, a 32-bit word. -/
def readHexWord : List Char → Option Word
  | '0' :: 'x' :: d :: ds => (hexNumber 0 (d :: ds)).bind fun v => if v < 2 ^ 32 then some (BitVec.ofNat 32 v) else none
  | _ => none

/-- The word that one line of assembler text stands for (R100, R101); none for a text outside the syntax. -/
def assemble (text : String) : Option Word :=
  let cs := trimSpaces (text.toList.map Char.toLower)
  let head := cs.takeWhile (· ≠ ' ')
  let tail := trimSpaces (cs.dropWhile (· ≠ ' '))
  match cutAt '.' head with
  | [[], ['w', 'o', 'r', 'd']] => readHexWord tail
  | [['n', 'o', 'p']] => if tail = [] then some (encode .nop) else none
  | name :: opts =>
    (readOptions opts).bind fun o =>
      (readRegs (cutAt ',' tail)).bind fun rs =>
        (buildText (String.ofList name) o.1 o.2 rs).map encode
  | [] => none

end Sys2Proof.Assembler
end

