-- ==== Sys2Proof/Machine/HostNotation.lean ====
section
/-! DEFINITION. The host transaction notation of 30_encoding.md R102 as lists of events, so that a host program is a `stream`. -/

namespace Sys2Proof.Machine

/-- `wr OFF, V`: a write with every byte strobe set (R102). -/
def wr (off : Addr) (v : Word) : Event := .host (.write off 0b1111 v)

/-- `rd OFF` (R102). -/
def rd (off : Addr) : Event := .host (.read off)

/-- `cmd <command>`: a write of its word to CMD (R102). -/
def cmdEvent (i : Instr) : Event := wr 0x01C (encode i)

/-- `wait` in the interleaving where `polls` reads of STATUS fall before the completion step: those reads, the engine's turn, and
the read that finds BUSY = 0 (R102, 40_command.md R117; log entry 15). -/
def waitEvents (polls : Nat) : List Event :=
  List.replicate polls (rd 0x018) ++ [.engine, rd 0x018]

/-- The offset of coefficient `i` of PRr, `0x1000 + 0x400*r + 4*i` (20_memory.md R63). -/
def windowAddr (r : Reg) (i : Nat) : Addr := BitVec.ofNat 14 (0x1000 + 0x400 * r.val + 4 * i)

/-- `wpoly PRr, [c0, ...]`: every coefficient modulo 2^32, in order (R102). -/
def wpoly (n : Nat) (r : Reg) (cs : Poly) : List Event :=
  (List.range n).map fun i => wr (windowAddr r i) (wordOfCoef (coef cs i))

/-- `rpoly PRr` (R102). -/
def rpoly (n : Nat) (r : Reg) : List Event := (List.range n).map fun i => rd (windowAddr r i)

end Sys2Proof.Machine
end

