-- ==== Sys2Proof/Safety.lean ====
section
/-! DEFINITION. The words that claims about an NRE are written in: canonical representatives, inverses, what a completion leaves
alone, the invariants of the state, and whose turn it is. -/

namespace Sys2Proof.Machine

/-! ## Arithmetic -/

/-- `r` lies in the representative range: (-m/2, m/2] for REP = 0, [0, m) for REP = 1 (30_encoding.md R93). -/
def Canonical (r : Int) (m : Nat) : Rep → Prop
  | .sym => -(m : Int) < 2 * r ∧ 2 * r ≤ (m : Int)
  | .nonneg => 0 ≤ r ∧ r < (m : Int)

/-- `r` is the canonical representative of the class of `x` modulo `m` (41_ring_arithmetic.md R130). -/
def Represents (r x : Int) (m : Nat) (rep : Rep) : Prop := Canonical r m rep ∧ (m : Int) ∣ r - x

/-- `x` lies in the signed CW-bit range (10_state.md R30). -/
def InCoefRange (c : Params) (x : Int) : Prop := -(2 ^ (c.cw - 1) : Int) ≤ x ∧ x < (2 ^ (c.cw - 1) : Int)

/-- `reduce(conv(a, b), m, 1) == ONE` (42_inverse.md R151). -/
def IsInverse (n m : Nat) (a b : Poly) : Prop := reducePoly n (conv n a b) m .nonneg = onePoly n

/-- There is a polynomial with `reduce(conv(a, b), m, 1) == ONE` (42_inverse.md R151). -/
def Invertible (n m : Nat) (a : Poly) : Prop := ∃ b : Poly, b.length = n ∧ IsInverse n m a b

/-- The lifting steps of 42_inverse.md R155 through the moduli `2^e` of a schedule of exponents. -/
def liftSchedule (n : Nat) (a : Poly) : List Nat → Poly → Poly
  | [], b => b
  | e :: es, b => liftSchedule n a es (liftStep n a b (2 ^ e))

/-- A schedule of exponents from `e` to `qe`, each step at most squaring the modulus (42_inverse.md R157). -/
def GoodSchedule (qe : Nat) : Nat → List Nat → Prop
  | e, [] => e = qe
  | e, e' :: es => e ≤ e' ∧ e' ≤ 2 * e ∧ GoodSchedule qe e' es

/-! ## Addresses -/

/-- The unmapped offsets of 20_memory.md R63: 0x0024 to 0x0FFF, the window words of coefficients beyond the ring degree, and
0x3000 to 0x3FFF. -/
def Unmapped (n : Nat) (a : Addr) : Prop :=
  (0x0024 ≤ a.toNat ∧ a.toNat < 0x1000) ∨
    (0x1000 ≤ a.toNat ∧ a.toNat < 0x3000 ∧ n ≤ (a.toNat - 0x1000) % 0x400 / 4) ∨ 0x3000 ≤ a.toNat

/-- The offsets of the coefficient windows (20_memory.md R63). -/
def InWindow (a : Addr) : Prop := 0x1000 ≤ a.toNat ∧ a.toNat < 0x3000

/-- The read-only registers ID, CFG_N, CFG_P, CFG_Q, CFG_W and TAGS (10_state.md R51). -/
def readOnlyAddrs : List Addr := [0x000, 0x004, 0x008, 0x00C, 0x010, 0x020]

/-! ## Frames -/

/-- Everything outside the registers, the tags and STATUS is as before. -/
structure SameControl (s t : State) : Prop where
  params : t.params = s.params
  ie : t.ie = s.ie
  cmd : t.cmd = s.cmd
  stream : t.stream = s.stream
  resp : t.resp = s.resp

/-- Every register and tag but those of `rd` is as before. -/
def SameRegsBut (rd : Reg) (s t : State) : Prop := ∀ r, r ≠ rd → t.reg r = s.reg r ∧ t.tag r = s.tag r

/-- Every register and every tag is as before. -/
def SameRegs (s t : State) : Prop := ∀ r, t.reg r = s.reg r ∧ t.tag r = s.tag r

/-- STATUS after a completion with a code (40_command.md R113). -/
structure Completed (code : Code) (t : State) : Prop where
  busy : t.busy = false
  done : t.done = true
  err : t.err = code

/-! ## Invariants -/

/-- What every state of an NRE satisfies: legal parameters (00_scope.md R10), registers of exactly N coefficients in the CW-bit
range (10_state.md R30), and never BUSY and DONE together (10_state.md R47). -/
structure State.Inv (s : State) : Prop where
  legal : s.params.Legal
  length : ∀ r, (s.reg r).length = s.params.n
  range : ∀ r, ∀ x ∈ s.reg r, InCoefRange s.params x
  busyDone : ¬(s.busy = true ∧ s.done = true)

/-- What a tag records (10_state.md R33): a register tagged MODP (MODQ) holds canonical representatives modulo P (Q), all in one
range. -/
def State.TagsTruthful (s : State) : Prop :=
  ∀ r m, s.tag r = tagOf m → ∃ rep, ∀ i < s.params.n, Canonical (coef (s.reg r) i) (modsel s.params m) rep

/-! ## Whose turn it is -/

/-- The next event is the engine's turn: its token, or nothing else is to come (log entry 2). -/
def State.EngineNext (s : State) : Prop := s.stream = [] ∨ ∃ rest, s.stream = .engine :: rest

/-- The state the engine's turn starts from: its token is taken off the stream, and the port shows no response. -/
def State.turn (s : State) : State := { s with stream := s.stream.tail, resp := none }

/-- The command of a word that writes a destination, and the destination (40_command.md R113, `writes_dest`). -/
def destOf : Instr → Option Reg
  | .nop => none
  | .add _ _ d _ _ => some d
  | .mul _ _ d _ _ => some d
  | .red _ _ d _ => some d
  | .inv _ _ d _ => some d

end Sys2Proof.Machine
end

