-- ==== Sys2Proof/Certificates/Slice0/Obligations.lean ====
section
/-! DEFINITION. What is to be proved about the model, one `def Obligations.<Name> : Prop` each; OBLIGATIONS.json lists them. Every
statement about states holds for every legal parameter set, not for the reference set alone (00_scope.md R10). -/

open Sys2Proof Sys2Proof.Machine

/-! ## Encoding -/

/-- The example words of 30_encoding.md R100 and ILLEGAL words of 95_test_vectors.md L2.6. -/
def Obligations.SampleWordsDecode : Prop :=
  decode 0x00000000 = .ok .nop ∧
  decode 0x00010211 = .ok (.add .q .sym 2 0 1) ∧
  decode 0x00032412 = .ok (.mul .q .sym 4 2 3) ∧
  decode 0x00000103 = .ok (.red .p .sym 1 0) ∧
  decode 0x00000104 = .ok (.inv .p .sym 1 0) ∧
  decode 0x00000234 = .ok (.inv .q .nonneg 2 0) ∧
  decode 0x00077722 = .ok (.mul .p .nonneg 7 7 7) ∧
  decode 0x00000005 = .error .reservedOp ∧
  decode 0x00010003 = .error .reservedBits

/-- "This makes the decoding exact, one word per meaning" (30_encoding.md R95): a word decodes to a command exactly when it is
that command's word. -/
def Obligations.DecodeAndEncodeAgree : Prop :=
  ∀ (w : Word) (i : Instr), decode w = .ok i ↔ encode i = w

/-- 30_encoding.md R96: `decode(w)` is the one row whose fixed bits the word has, or ILLEGAL when no row's are; each row fixes
another OP. -/
def Obligations.DecoderPicksTheOneRow : Prop :=
  (rows.map fun r => bitField r.pattern 0 4) = [0, 1, 2, 3, 4] ∧ (∀ r ∈ rows, bitField r.mask 0 4 = 15) ∧
  ∀ w : Word,
    (∃ r ∈ rows, w &&& r.mask = r.pattern ∧ (∀ r' ∈ rows, w &&& r'.mask = r'.pattern → r' = r) ∧
      ∃ i, decode w = .ok i ∧ i.row = r) ∨
    ((∀ r ∈ rows, w &&& r.mask ≠ r.pattern) ∧ ∃ e, decode w = .error e)

/-- 30_encoding.md R90: the fields of a legal command are those bits of its word, every reserved bit is 0, and the word is
assembled from the fields by the rule's formula. -/
def Obligations.FieldsOfLegalWords : Prop :=
  ∀ (w : Word) (i : Instr), decode w = .ok i →
    i.WellFormed ∧
    i.fields.op = w.toNat % 16 ∧
    i.fields.msel = w.toNat / 2 ^ 4 % 2 ∧
    i.fields.rep = w.toNat / 2 ^ 5 % 2 ∧
    i.fields.rd = w.toNat / 2 ^ 8 % 8 ∧
    i.fields.ra = w.toNat / 2 ^ 12 % 8 ∧
    i.fields.rb = w.toNat / 2 ^ 16 % 8 ∧
    w.toNat / 2 ^ 6 % 4 = 0 ∧ w.toNat / 2 ^ 11 % 2 = 0 ∧ w.toNat / 2 ^ 15 % 2 = 0 ∧ w.toNat / 2 ^ 19 = 0 ∧
    (encode i).toNat =
      i.fields.op + i.fields.msel * 2 ^ 4 + i.fields.rep * 2 ^ 5 + i.fields.rd * 2 ^ 8 + i.fields.ra * 2 ^ 12 +
        i.fields.rb * 2 ^ 16

/-- 30_encoding.md R95, R97: OP 5 to 15 is ILLEGAL, and so is OP 0 to 4 with a nonzero reserved or unused bit; every other word
is legal. -/
def Obligations.ReservedWordsAreIllegal : Prop :=
  ∀ w : Word,
    let op := w.toNat % 16
    let reservedBit := w.toNat / 2 ^ 6 % 4 ≠ 0 ∨ w.toNat / 2 ^ 11 % 2 ≠ 0 ∨ w.toNat / 2 ^ 15 % 2 ≠ 0 ∨ w.toNat / 2 ^ 19 ≠ 0
    let unusedBit := ((op = 3 ∨ op = 4) ∧ w.toNat / 2 ^ 16 % 8 ≠ 0) ∨ (op = 0 ∧ w.toNat ≠ 0)
    (5 ≤ op → decode w = .error .reservedOp) ∧
    (op ≤ 4 → reservedBit ∨ unusedBit → decode w = .error .reservedBits) ∧
    (op ≤ 4 → ¬reservedBit → ¬unusedBit → ∃ i, decode w = .ok i)

/-- 20_memory.md R68: byte lane k of a word is its bits 8k+7 down to 8k, the lowest address first. -/
def Obligations.ByteLanesAreLittleEndian : Prop :=
  ∀ w : Word,
    (∀ k < 4, (byteLane w k).toNat = w.toNat / 256 ^ k % 256) ∧
    wordOfBytes (bytesOfWord w) = some w ∧
    ∀ b0 b1 b2 b3 : Byte, ∃ v, wordOfBytes [b0, b1, b2, b3] = some v ∧ bytesOfWord v = [b0, b1, b2, b3]

/-- 30_encoding.md R100: the text written for a word, legal or not, is read back as that word. -/
def Obligations.AssemblerReadsEveryWordBack : Prop :=
  ∀ w : Word, Assembler.assemble (Assembler.wordText w) = some w

/-! ## The step -/

/-- When a command is in flight and the engine has the next turn, the step is the completion step of the command that CMD decodes
to (40_command.md R110, R113, R114). Turn tokens and the response field are the model's own (log entries 2, 3). -/
def Obligations.StepRunsDecodedCommand : Prop :=
  ∀ (s : State) (i : Instr), s.busy = true → s.EngineNext → decode s.cmd = .ok i → step s = exec i s.turn

/-- An ILLEGAL word completes with code ILLEGAL and changes no register and no tag; it stays readable in CMD (30_encoding.md R97,
60_exceptions.md R171). Turns are the model's form of R72's stream (log entry 2). -/
def Obligations.IllegalCommandCompletes : Prop :=
  ∀ (s : State) (e : IllegalWord), s.busy = true → s.EngineNext → decode s.cmd = .error e →
    ∃ t, step s = .next t ∧ Completed .illegal t ∧ SameRegs s t ∧ SameControl s.turn t ∧ memRead t 0x01C = (s.cmd, false)

/-- The other events: a transaction has its effect and its response, and nothing else happens; the engine does nothing while
BUSY = 0 (20_memory.md R60, R72, 40_command.md R110, 60_exceptions.md R186). The list of events is the model's form of R72's stream (log entry 2). -/
def Obligations.StepOfTransactionsAndIdleTurns : Prop :=
  ∀ s : State,
    (∀ a rest, s.stream = .host (.read a) :: rest →
      step s = .next { s with stream := rest, resp := some (.read (memRead s a).1 (memRead s a).2) }) ∧
    (∀ a strb v rest, s.stream = .host (.write a strb v) :: rest →
      step s = .next { (memWrite s a strb v).1 with stream := rest, resp := some (.write (memWrite s a strb v).2) }) ∧
    (s.busy = false → s.EngineNext → step s = .next s.turn)

/-- The model's own (log entry 4): the state the host asks for runs exactly the command its decoder reads. -/
def Obligations.FetchWordRunsNext : Prop :=
  ∀ (s : State) (w : Nat) (i : Instr), w < 2 ^ 32 → decodeTableWord 32 w = some i →
    step (s.withFetchWord 32 w) = exec i { acceptCommand (BitVec.ofNat 32 w) s with resp := none } ∧ encode i = BitVec.ofNat 32 w

/-- NRE has no traps (60_exceptions.md R178): every step, and every command in every state, answers a next state. -/
def Obligations.NothingEverStops : Prop :=
  (∀ s : State, ∃ t, step s = .next t) ∧ ∀ (i : Instr) (s : State), ∃ t, exec i s = .next t

/-! ## Reset and invariants -/

/-- 70_reset_and_hazards.md R190: the reset values, for every legal parameter set. -/
def Obligations.ResetValues : Prop :=
  ∀ c : Params, c.Legal →
    let t := State.resetWith c
    t.params = c ∧ (∀ r, (t.reg r).length = c.n ∧ ∀ i, coef (t.reg r) i = 0) ∧ (∀ r, t.tag r = .raw) ∧
    t.ie = false ∧ t.busy = false ∧ t.done = false ∧ t.err = .ok ∧ t.cmd = 0x00000000 ∧ irq t = false ∧
    memRead t 0x000 = (0x4E524531, false) ∧ memRead t 0x004 = (BitVec.ofNat 32 c.n, false) ∧
    memRead t 0x008 = (BitVec.ofNat 32 c.p, false) ∧ memRead t 0x00C = (BitVec.ofNat 32 c.q, false) ∧
    memRead t 0x010 = (BitVec.ofNat 32 (c.cw + 0x800), false) ∧
    memRead t 0x014 = (0x00000000, false) ∧ memRead t 0x018 = (0x00000000, false) ∧
    memRead t 0x01C = (0x00000000, false) ∧ memRead t 0x020 = (0x00000000, false)

/-- 70_reset_and_hazards.md R191: reset abandons a command in flight, and none of its effects survive. It leaves every state, a
command in flight or not, with the reset values of the same NRE (R190). That reset is an event of a list is the model's form (log entries 2, 10). -/
def Obligations.ResetAbandonsCommand : Prop :=
  ∀ (s : State) (rest : List Event), s.stream = .reset :: rest →
    ∃ t, step s = .next t ∧ t.params = s.params ∧ t.busy = false ∧ t.done = false ∧ t.err = .ok ∧ t.ie = false ∧
      t.cmd = 0x00000000 ∧ ∀ r, t.tag r = .raw ∧ (t.reg r).length = s.params.n ∧ ∀ i, coef (t.reg r) i = 0

/-- The reset state of every legal parameter set meets both invariants, and the reference set of 00_scope.md is legal. -/
def Obligations.ResetMeetsInvariants : Prop :=
  (∀ c : Params, c.Legal → (State.resetWith c).Inv ∧ (State.resetWith c).TagsTruthful) ∧ Params.reference.Legal

/-- Every step keeps the invariant: N coefficients in the CW-bit range in each register (10_state.md R30), never BUSY and DONE
together (R47), the same legal parameters. -/
def Obligations.StepKeepsInvariant : Prop :=
  ∀ s t : State, s.Inv → step s = .next t → t.Inv

/-- Every step keeps what the tags record (10_state.md R33): a register tagged MODP or MODQ is reduced modulo P or Q. -/
def Obligations.StepKeepsTagsTruthful : Prop :=
  ∀ s t : State, s.Inv → s.TagsTruthful → step s = .next t → t.TagsTruthful

/-! ## Control, status and configuration registers -/

/-- 10_state.md R41: ID reads the constant, in every state, and cannot be written. -/
def Obligations.IdRegisterReads : Prop :=
  ∀ s : State, memRead s 0x000 = (0x4E524531, false) ∧ ∀ strb v, memWrite s 0x000 strb v = (s, true)

/-- 10_state.md R42 to R45: the configuration registers read the parameters, in every state, and cannot be written. -/
def Obligations.ConfigRegistersReadParameters : Prop :=
  ∀ s : State, s.params.Legal →
    (∃ v, memRead s 0x004 = (v, false) ∧ v.toNat = s.params.n) ∧
    (∃ v, memRead s 0x008 = (v, false) ∧ v.toNat = s.params.p) ∧
    (∃ v, memRead s 0x00C = (v, false) ∧ v.toNat = s.params.q) ∧
    (∃ v, memRead s 0x010 = (v, false) ∧ v.toNat = s.params.cw + 8 * 2 ^ 8) ∧
    ∀ a ∈ [(0x004 : Addr), 0x008, 0x00C, 0x010], ∀ strb v, memWrite s a strb v = (s, true)

/-- 10_state.md R47: the fields of STATUS, every reserved bit 0; ERR never reads 3 (60_exceptions.md R170). -/
def Obligations.StatusRegisterReads : Prop :=
  ∀ s : State, ∃ v, memRead s 0x018 = (v, false) ∧
    v.toNat = (if s.busy then 1 else 0) + (if s.done then 2 else 0) + 16 * s.err.value ∧ bitField v 4 2 ≠ 3

/-- 10_state.md R46: IE is bit 0 of CTRL and every other bit reads 0; a write sets IE from bit 0 and nothing else, also while a
command is in flight; the reset value is 0. -/
def Obligations.CtrlWriteSetsInterruptEnable : Prop :=
  (∀ (s : State) (v : Word),
    memRead s 0x014 = (if s.ie then 0x00000001 else 0x00000000, false) ∧
    memWrite s 0x014 0b1111 v = ({ s with ie := v.getLsbD 0 }, false) ∧
    memRead (memWrite s 0x014 0b1111 v).1 0x014 = (v &&& 1, false)) ∧
  ∀ c, (State.resetWith c).ie = false

/-- 10_state.md R48: a write to STATUS clears DONE when bit 1 is set and changes nothing else; never an error response. -/
def Obligations.StatusWriteClearsDone : Prop :=
  ∀ (s : State) (v : Word),
    memWrite s 0x018 0b1111 v = ({ s with done := if v.getLsbD 1 then false else s.done }, false)

/-- 10_state.md R50: TAGS reads the eight tags, two bits each, and 0 above them; its reset value is 0, it cannot be written, and it
stays as it is while a command is in flight. -/
def Obligations.TagsRegisterReads : Prop :=
  (∀ s : State,
    (∃ v, memRead s 0x020 = (v, false) ∧ (∀ r : Reg, bitField v (2 * r.val) 2 = (s.tag r).value) ∧ bitField v 16 16 = 0) ∧
    (∀ strb v, memWrite s 0x020 strb v = (s, true)) ∧
    ∀ t, step s = .next t → s.busy = true → t.busy = true → memRead t 0x020 = memRead s 0x020) ∧
  ∀ c, memRead (State.resetWith c) 0x020 = (0x00000000, false)

/-- 10_state.md R51: a write to a read-only register gets an error response and changes nothing; reads of it never do. -/
def Obligations.ReadOnlyRegistersRefuseWrites : Prop :=
  ∀ (s : State), ∀ a ∈ readOnlyAddrs, (∀ strb v, memWrite s a strb v = (s, true)) ∧ (memRead s a).2 = false

/-- 40_command.md R111: a legal write to CMD while BUSY = 0 accepts every word; an illegal one is reported when it completes. -/
def Obligations.CommandIsAccepted : Prop :=
  ∀ (s : State) (v : Word), s.busy = false →
    ∃ t, memWrite s 0x01C 0b1111 v = (t, false) ∧ t = { s with cmd := v, busy := true, done := false } ∧ irq t = false ∧
      ∀ e, decode v = .error e → ∃ u, runCommand t = .next u ∧ Completed .illegal u

/-- 40_command.md R112: a write to CMD while BUSY = 1 gets an error response and changes nothing. -/
def Obligations.CommandIsRefusedWhileBusy : Prop :=
  ∀ (s : State) (strb : Strobes) (v : Word), s.busy = true → memWrite s 0x01C strb v = (s, true)

/-- 10_state.md R49: CMD reads the last accepted word, whole; a write while BUSY = 0 stores the word and starts the command, a
write while BUSY = 1 is refused; the reset value is 0. -/
def Obligations.CmdReadsLastAcceptedWord : Prop :=
  (∀ (s : State) (v : Word), memRead s 0x01C = (s.cmd, false) ∧
    (s.busy = false → ∃ t, memWrite s 0x01C 0b1111 v = (t, false) ∧ t.busy = true ∧ memRead t 0x01C = (v, false)) ∧
    (s.busy = true → memWrite s 0x01C 0b1111 v = (s, true))) ∧
  (∀ s t, step s = .next t → t.cmd ≠ s.cmd → (∃ rest, s.stream = .reset :: rest) ∨
    (s.busy = false ∧ ∃ rest, s.stream = .host (.write 0x01C 0b1111 t.cmd) :: rest)) ∧
  ∀ c, memRead (State.resetWith c) 0x01C = (0x00000000, false)

/-- 60_exceptions.md R175: irq = CTRL.IE and STATUS.DONE; completion raises it if enabled, whatever the code; acceptance and the
write of 1 to DONE clear it, and IE = 0 hides it without clearing DONE. -/
def Obligations.IrqIsLevelOfEnableAndDone : Prop :=
  ∀ s : State,
    (irq s = true ↔ s.ie = true ∧ s.done = true) ∧
    (∀ i t, exec i s = .next t → t.done = true ∧ irq t = s.ie) ∧ irq (completeIllegal s) = s.ie ∧
    (∀ v, irq (acceptCommand v s) = false) ∧
    irq (memWrite s 0x018 0b1111 0x00000002).1 = false ∧
    irq (memWrite s 0x014 0b1111 0x00000000).1 = false ∧
    (memWrite s 0x014 0b1111 0x00000000).1.done = s.done

/-! ## The host port -/

/-- 20_memory.md R63: the address map, for every word-aligned offset. -/
def Obligations.WindowAddressMap : Prop :=
  (∀ (n : Nat) (r : Reg) (i : Nat), i < 256 →
    (windowAddr r i).toNat = 0x1000 + 0x400 * r.val + 4 * i ∧
    target n (windowAddr r i) = if i < n then .coef r i else .unmapped) ∧
  ∀ (n : Nat) (a : Addr), a.toNat % 4 = 0 →
    (a.toNat < 0x0024 →
      [Target.id, .cfgN, .cfgP, .cfgQ, .cfgW, .ctrl, .status, .cmd, .tags][a.toNat / 4]? = some (target n a)) ∧
    (0x0024 ≤ a.toNat → a.toNat < 0x1000 → target n a = .unmapped) ∧
    (0x1000 ≤ a.toNat → a.toNat < 0x3000 → ∃ (r : Reg) (i : Nat), i < 256 ∧ a = windowAddr r i ∧
      r.val = (a.toNat - 0x1000) / 2 ^ 10 % 8 ∧ i = (a.toNat - 0x1000) / 2 ^ 2 % 256) ∧
    (0x3000 ≤ a.toNat → target n a = .unmapped)

/-- 20_memory.md R64: an access to an unmapped offset gets an error response. -/
def Obligations.UnmappedAccessesRefused : Prop :=
  ∀ (s : State) (a : Addr) (strb : Strobes) (v : Word), Unmapped s.params.n a →
    memRead s a = (0x00000000, true) ∧ memWrite s a strb v = (s, true)

/-- 20_memory.md R65: a misaligned access and a write with a strobe missing get an error response. -/
def Obligations.MisalignedOrPartialRefused : Prop :=
  ∀ (s : State) (a : Addr) (strb : Strobes) (v : Word),
    (a.toNat % 4 ≠ 0 → memRead s a = (0x00000000, true)) ∧
    (a.toNat % 4 ≠ 0 ∨ strb ≠ 0b1111 → memWrite s a strb v = (s, true))

/-- 20_memory.md R70: while BUSY = 1 the windows are refused, and the control and status registers stay readable. -/
def Obligations.WindowRefusedWhileBusy : Prop :=
  ∀ (s : State), s.busy = true →
    (∀ a, InWindow a → memRead s a = (0x00000000, true) ∧ ∀ strb v, memWrite s a strb v = (s, true)) ∧
    (∀ a : Addr, a.toNat < 0x0024 → a.toNat % 4 = 0 → (memRead s a).2 = false ∧
      (a ≠ 0x018 → memRead s a = memRead { s with busy := false } a)) ∧
    (∀ v, (memWrite s 0x014 0b1111 v).2 = false ∧ (memWrite s 0x018 0b1111 v).2 = false)

/-- 20_memory.md R66: a coefficient write stores the low CW bits as a signed number, sets the tag RAW and changes nothing else. -/
def Obligations.CoefficientWriteStores : Prop :=
  ∀ (s : State) (r : Reg) (i : Nat) (v : Word), s.Inv → i < s.params.n →
    (s.busy = false →
      ∃ t, memWrite s (windowAddr r i) 0b1111 v = (t, false) ∧
        InCoefRange s.params (coef (t.reg r) i) ∧ (2 ^ s.params.cw : Int) ∣ coef (t.reg r) i - v.toNat ∧
        (∀ j, j ≠ i → coef (t.reg r) j = coef (s.reg r) j) ∧ (t.reg r).length = s.params.n ∧
        t.tag r = .raw ∧ SameRegsBut r s t ∧ SameControl s t ∧ t.busy = s.busy ∧ t.done = s.done ∧ t.err = s.err) ∧
    (s.busy = true → memWrite s (windowAddr r i) 0b1111 v = (s, true))

/-- 20_memory.md R67: a coefficient read returns the coefficient sign extended to 32 bits. -/
def Obligations.CoefficientReadSignExtends : Prop :=
  ∀ (s : State) (r : Reg) (i : Nat), s.Inv → i < s.params.n →
    (s.busy = false → ∃ v, memRead s (windowAddr r i) = (v, false) ∧ v.toInt = coef (s.reg r) i) ∧
    (s.busy = true → memRead s (windowAddr r i) = (0x00000000, true))

/-- 60_exceptions.md R177: exactly the five causes of an error response, which carries read data 0 and changes no state. -/
def Obligations.ErrorResponsesHaveFiveCauses : Prop :=
  ∀ (s : State) (a : Addr) (strb : Strobes) (v : Word),
    ((memRead s a).2 = true ↔
      a.toNat % 4 ≠ 0 ∨ Unmapped s.params.n a ∨ (InWindow a ∧ s.busy = true)) ∧
    ((memWrite s a strb v).2 = true ↔
      (a.toNat % 4 ≠ 0 ∨ strb ≠ 0b1111) ∨ Unmapped s.params.n a ∨ a ∈ readOnlyAddrs ∨ (InWindow a ∧ s.busy = true) ∨
        (a = 0x01C ∧ s.busy = true)) ∧
    ((memRead s a).2 = true → (memRead s a).1 = 0x00000000) ∧
    ((memWrite s a strb v).2 = true → (memWrite s a strb v).1 = s)

/-- 20_memory.md R69: no read has a side effect; every write but one to CMD is idempotent, a coefficient write sets the tag, and a
write to CMD starts a command or is refused. -/
def Obligations.OnlyCommandWritesRepeatDifferently : Prop :=
  ∀ (s : State) (a : Addr) (strb : Strobes) (v : Word),
    (∃ p, transact (.read a) s = { s with resp := p }) ∧
    (a ≠ 0x01C → memWrite (memWrite s a strb v).1 a strb v = memWrite s a strb v) ∧
    (∀ r i, i < 256 → i < s.params.n → s.busy = false → (memWrite s (windowAddr r i) 0b1111 v).1.tag r = .raw) ∧
    (s.busy = false → (memWrite s 0x01C 0b1111 v).2 = false ∧ (memWrite s 0x01C 0b1111 v).1.busy = true ∧
      memWrite (memWrite s 0x01C 0b1111 v).1 0x01C strb v = ((memWrite s 0x01C 0b1111 v).1, true))

/-! ## What may change what -/

/-- 10_state.md R31, R34: a register or its tag changes only by a host write to one of its coefficients, by a completion with OK
whose destination it is, or by reset. -/
def Obligations.RegistersChangeOnlyByHostOrCompletion : Prop :=
  ∀ (s t : State) (r : Reg), step s = .next t → (t.reg r ≠ s.reg r ∨ t.tag r ≠ s.tag r) →
    (∃ i v rest, s.stream = .host (.write (windowAddr r i) 0b1111 v) :: rest ∧ s.busy = false ∧ i < s.params.n ∧
      t.tag r = .raw) ∨
    (s.busy = true ∧ s.EngineNext ∧ t.err = .ok ∧ ∃ i, decode s.cmd = .ok i ∧ destOf i = some r) ∨
    ∃ rest, s.stream = .reset :: rest

/-- 10_state.md R39, R46, R47, R49: which events change the control and status state, outside reset. -/
def Obligations.ControlStateChangesOnlyAsStated : Prop :=
  ∀ s t : State, step s = .next t → (∀ rest, s.stream ≠ .reset :: rest) →
    t.params = s.params ∧
    (t.ie ≠ s.ie → ∃ v rest, s.stream = .host (.write 0x014 0b1111 v) :: rest) ∧
    (t.err ≠ s.err → s.busy = true ∧ s.EngineNext) ∧
    (t.cmd ≠ s.cmd → s.busy = false ∧ ∃ rest, s.stream = .host (.write 0x01C 0b1111 t.cmd) :: rest) ∧
    (s.busy = false → t.busy = true → t.done = false ∧ ∃ rest, s.stream = .host (.write 0x01C 0b1111 t.cmd) :: rest) ∧
    (s.busy = true → t.busy = false → t.done = true ∧ s.EngineNext) ∧
    (s.done = false → t.done = true → s.busy = true ∧ s.EngineNext) ∧
    (s.done = true → t.done = false →
      (∃ v rest, s.stream = .host (.write 0x018 0b1111 v) :: rest ∧ v.getLsbD 1 = true) ∨
        (s.busy = false ∧ t.busy = true))

/-- 40_command.md R113: the completion step of every command sets STATUS, writes no register or tag but its destination's, writes
nothing at all with a code other than OK, and leaves CTRL and CMD alone; outside STATUS, TAGS and the destination's window every
address reads what an idle NRE read there before. -/
def Obligations.CompletionFrame : Prop :=
  ∀ (i : Instr) (s : State), ∃ t, exec i s = .next t ∧ Completed t.err t ∧ SameControl s t ∧ t.err ≠ .illegal ∧
    (t.err ≠ .ok → SameRegs s t) ∧ (destOf i = none → SameRegs s t) ∧ (∀ d, destOf i = some d → SameRegsBut d s t) ∧
    ∀ a : Addr, a ≠ 0x018 → a ≠ 0x020 → (∀ d k, destOf i = some d → k < 256 → a ≠ windowAddr d k) →
      memRead t a = memRead { s with busy := false } a

/-- 40_command.md R114, 10_state.md R35: what a command computes depends on its word and the polynomial registers alone, on no
tag, no earlier code and no control bit. -/
def Obligations.CommandsReadOnlyRegisters : Prop :=
  ∀ (i : Instr) (s s' : State), s.params = s'.params → s.pr = s'.pr →
    ∃ t t', exec i s = .next t ∧ exec i s' = .next t' ∧ t.err = t'.err ∧ t.pr = t'.pr ∧
      ∀ d, destOf i = some d → t.err = .ok → t.tag d = t'.tag d

/-- 20_memory.md R71, R73, 40_command.md R117: however the host's transactions fall between acceptance and completion, the command
in flight completes, with the registers, the tags and the code it would have with none. The finite list of events is the model's form of R72's stream and of
weak fairness (log entry 2). -/
def Obligations.CommandInFlightIsIsolated : Prop :=
  ∀ s : State, s.busy = true → (∀ e ∈ s.stream, e ≠ .reset) →
    ∃ w, runCommand s = .next w ∧
    ∃ k ≤ s.stream.length, ∃ t u : State,
      core.run k s = .next t ∧ t.busy = true ∧ t.pr = s.pr ∧ t.tags = s.tags ∧ t.cmd = s.cmd ∧ t.err = s.err ∧
      t.EngineNext ∧
      core.run (k + 1) s = .next u ∧ u.busy = false ∧ u.done = true ∧ u.pr = w.pr ∧ u.tags = w.tags ∧ u.err = w.err

/-! ## Arithmetic -/

/-- 41_ring_arithmetic.md R130: `reduce` is the unique representative in the chosen range, it lies in the CW-bit range for both
moduli, and on a polynomial it acts coefficient by coefficient. -/
def Obligations.ReduceIsTheCanonicalRepresentative : Prop :=
  (∀ (x : Int) (m : Nat) (rep : Rep), 2 ≤ m →
    Represents (reduce x m rep) x m rep ∧ ∀ r, Represents r x m rep → r = reduce x m rep) ∧
  (∀ (c : Params) (x : Int) (m : MSel) (rep : Rep), c.Legal → InCoefRange c (reduce x (modsel c m) rep)) ∧
  ∀ (n m : Nat) (a : Poly) (rep : Rep) (i : Nat), i < n →
    coef (reducePoly n a m rep) i = reduce (coef a i) m rep ∧ (reducePoly n a m rep).length = n

/-- 41_ring_arithmetic.md R131: the cyclic convolution, index by index, over the integers; it is the product in Z[x]/(x^N - 1). -/
def Obligations.ConvolutionIsTheCyclicSum : Prop :=
  ∀ (n : Nat) (a b : Poly),
    (conv n a b).length = n ∧
    (∀ i < n, coef (conv n a b) i = ∑ j ∈ Finset.range n, coef a j * coef b (((i : Int) - j) % n).toNat) ∧
    (Polynomial.X ^ n - 1 : Polynomial Int) ∣
      (∑ i ∈ Finset.range n, Polynomial.C (coef a i) * Polynomial.X ^ i) *
        (∑ i ∈ Finset.range n, Polynomial.C (coef b i) * Polynomial.X ^ i) -
      ∑ i ∈ Finset.range n, Polynomial.C (coef (conv n a b) i) * Polynomial.X ^ i

/-- 41_ring_arithmetic.md R134: lane i of ADD and RED depends on lane i of the sources alone; a lane of MUL does not. -/
def Obligations.AddAndRedAreLanewise : Prop :=
  (∀ (n m : Nat) (rep : Rep) (i : Nat) (a a' b b' : Poly), coef a i = coef a' i → coef b i = coef b' i →
    coef (addMod n a b m rep) i = coef (addMod n a' b' m rep) i ∧ coef (redMod n a m rep) i = coef (redMod n a' m rep) i) ∧
  ∀ (n m : Nat) (rep : Rep), 2 ≤ n → 2 ≤ m → ∃ a a' b : Poly, coef a 0 = coef a' 0 ∧
    coef (mulMod n a b m rep) 0 ≠ coef (mulMod n a' b m rep) 0

/-- 41_ring_arithmetic.md R135: `reduce` depends on the class alone; ADD and MUL are commutative and associative and MUL
distributes over ADD, for every range. -/
def Obligations.RingLawsHold : Prop :=
  ∀ (n m : Nat) (rep : Rep) (a b c : Poly), 1 ≤ n → 2 ≤ m →
    (∀ x y : Int, (m : Int) ∣ x - y → reduce x m rep = reduce y m rep) ∧
    addMod n a b m rep = addMod n b a m rep ∧
    mulMod n a b m rep = mulMod n b a m rep ∧
    addMod n (addMod n a b m rep) c m rep = addMod n a (addMod n b c m rep) m rep ∧
    mulMod n (mulMod n a b m rep) c m rep = mulMod n a (mulMod n b c m rep) m rep ∧
    mulMod n a (addMod n b c m rep) m rep = addMod n (mulMod n a b m rep) (mulMod n a c m rep) m rep

/-- 41_ring_arithmetic.md R137: `mul_m(a, ZERO) = ZERO` and `mul_m(a, ONE) = reduce(a, m, REP)`. -/
def Obligations.MulByZeroAndOne : Prop :=
  ∀ (n m : Nat) (rep : Rep) (a : Poly), 1 ≤ n → 2 ≤ m →
    mulMod n a (zeroPoly n) m rep = zeroPoly n ∧ mulMod n (zeroPoly n) a m rep = zeroPoly n ∧
    mulMod n a (onePoly n) m rep = reducePoly n a m rep

/-- 41_ring_arithmetic.md R139: RED is idempotent, and a second RED converts between the ranges. -/
def Obligations.RedConvertsBetweenRanges : Prop :=
  ∀ (n m : Nat) (rep rep' : Rep) (a : Poly), 2 ≤ m → redMod n (redMod n a m rep) m rep' = redMod n a m rep'

/-- 41_ring_arithmetic.md R140: for a coefficient negative in the symmetric range, reducing its non-negative representative
modulo Q modulo P gives another class than reducing it directly. -/
def Obligations.RangePitfall : Prop :=
  ∀ (c : Params) (x : Int) (rep : Rep), c.Legal → Canonical x c.q .sym → x < 0 →
    reduce (reduce x c.q .nonneg) c.p rep ≠ reduce (reduce x c.q .sym) c.p rep

/-! ## Commands -/

/-- 40_command.md R116: NOP completes with OK and writes no register and no tag, STATUS then reads 2; its one word is 0x00000000,
and a word with OP = 0 and any other bit set is ILLEGAL. -/
def Obligations.NopOnlyCompletes : Prop :=
  (∀ s : State, ∃ t, exec .nop s = .next t ∧ t = { s with busy := false, done := true, err := .ok } ∧
    memRead t 0x018 = (0x00000002, false)) ∧
  ∀ w : Word, (decode w = .ok .nop ↔ w = 0x00000000) ∧ (bitField w 0 4 = 0 → w ≠ 0x00000000 → ∃ e, decode w = .error e)

/-- 41_ring_arithmetic.md R133: ADD. The sources are those of the state before, so RD may be RA or RB (40_command.md R115). -/
def Obligations.AddWritesReducedSum : Prop :=
  ∀ (s : State) (m : MSel) (rep : Rep) (rd ra rb : Reg), s.params.Legal →
    ∃ t, exec (.add m rep rd ra rb) s = .next t ∧ Completed .ok t ∧ t.tag rd = tagOf m ∧
      (t.reg rd).length = s.params.n ∧
      (∀ i < s.params.n,
        Represents (coef (t.reg rd) i) (coef (s.reg ra) i + coef (s.reg rb) i) (modsel s.params m) rep) ∧
      SameRegsBut rd s t ∧ SameControl s t

/-- 41_ring_arithmetic.md R136: MUL, the cyclic convolution over exact integers (R132), then reduced. -/
def Obligations.MulWritesReducedConvolution : Prop :=
  ∀ (s : State) (m : MSel) (rep : Rep) (rd ra rb : Reg), s.params.Legal →
    ∃ t, exec (.mul m rep rd ra rb) s = .next t ∧ Completed .ok t ∧ t.tag rd = tagOf m ∧
      (t.reg rd).length = s.params.n ∧
      (∀ i < s.params.n,
        Represents (coef (t.reg rd) i)
          (∑ j ∈ Finset.range s.params.n, coef (s.reg ra) j * coef (s.reg rb) (((i : Int) - j) % s.params.n).toNat)
          (modsel s.params m) rep) ∧
      SameRegsBut rd s t ∧ SameControl s t

/-- 41_ring_arithmetic.md R139: RED. -/
def Obligations.RedWritesReducedSource : Prop :=
  ∀ (s : State) (m : MSel) (rep : Rep) (rd ra : Reg), s.params.Legal →
    ∃ t, exec (.red m rep rd ra) s = .next t ∧ Completed .ok t ∧ t.tag rd = tagOf m ∧
      (t.reg rd).length = s.params.n ∧
      (∀ i < s.params.n, Represents (coef (t.reg rd) i) (coef (s.reg ra) i) (modsel s.params m) rep) ∧
      SameRegsBut rd s t ∧ SameControl s t

/-- 42_inverse.md R150, R151 for MSEL = 0: INV writes the inverse modulo P in the chosen range when there is one, and otherwise
completes with NOINV and changes no register and no tag (60_exceptions.md R172), also when RD = RA. -/
def Obligations.InvModPWritesTheInverse : Prop :=
  ∀ (s : State) (rep : Rep) (rd ra : Reg), s.params.Legal →
    ∃ t, exec (.inv .p rep rd ra) s = .next t ∧ SameControl s t ∧
      (Invertible s.params.n s.params.p (s.reg ra) →
        Completed .ok t ∧ t.tag rd = .modp ∧ (t.reg rd).length = s.params.n ∧
        (∀ i < s.params.n, Canonical (coef (t.reg rd) i) s.params.p rep) ∧
        IsInverse s.params.n s.params.p (s.reg ra) (t.reg rd) ∧ SameRegsBut rd s t) ∧
      (¬Invertible s.params.n s.params.p (s.reg ra) → Completed .noinv t ∧ SameRegs s t)

/-- 42_inverse.md R150, R151 for MSEL = 1: the same modulo Q. -/
def Obligations.InvModQWritesTheInverse : Prop :=
  ∀ (s : State) (rep : Rep) (rd ra : Reg), s.params.Legal →
    ∃ t, exec (.inv .q rep rd ra) s = .next t ∧ SameControl s t ∧
      (Invertible s.params.n s.params.q (s.reg ra) →
        Completed .ok t ∧ t.tag rd = .modq ∧ (t.reg rd).length = s.params.n ∧
        (∀ i < s.params.n, Canonical (coef (t.reg rd) i) s.params.q rep) ∧
        IsInverse s.params.n s.params.q (s.reg ra) (t.reg rd) ∧ SameRegsBut rd s t) ∧
      (¬Invertible s.params.n s.params.q (s.reg ra) → Completed .noinv t ∧ SameRegs s t)

/-- 42_inverse.md R152: for MSEL = 0 the inverse exists iff `a mod P` and `x^N - 1` are coprime in GF(P)[x]; `a mod P = 0` gives
NOINV. -/
def Obligations.InvModPExistsIffCoprime : Prop :=
  ∀ (s : State) (rep : Rep) (rd ra : Reg), s.params.Legal →
    let coprime := IsCoprime
      (∑ i ∈ Finset.range s.params.n,
        Polynomial.C ((coef (s.reg ra) i : Int) : ZMod s.params.p) * Polynomial.X ^ i)
      (Polynomial.X ^ s.params.n - 1)
    (Invertible s.params.n s.params.p (s.reg ra) ↔ coprime) ∧
    ∃ t, exec (.inv .p rep rd ra) s = .next t ∧ (t.err = .ok ↔ coprime) ∧ (t.err ≠ .ok → t.err = .noinv) ∧
      ((∀ i < s.params.n, (s.params.p : Int) ∣ coef (s.reg ra) i) → t.err = .noinv)

/-- 42_inverse.md R154: for MSEL = 1 the inverse exists iff `a mod 2` is invertible in GF(2)[x]/(x^N - 1), that is, iff `a mod 2`
and `x^N - 1` are coprime in GF(2)[x]. -/
def Obligations.InvModQExistsIffCoprimeModTwo : Prop :=
  ∀ (s : State) (rep : Rep) (rd ra : Reg), s.params.Legal →
    let coprime := IsCoprime
      (∑ i ∈ Finset.range s.params.n, Polynomial.C ((coef (s.reg ra) i : Int) : ZMod 2) * Polynomial.X ^ i)
      (Polynomial.X ^ s.params.n - 1)
    (Invertible s.params.n s.params.q (s.reg ra) ↔ Invertible s.params.n 2 (s.reg ra)) ∧
    (Invertible s.params.n 2 (s.reg ra) ↔ coprime) ∧
    ∃ t, exec (.inv .q rep rd ra) s = .next t ∧ (t.err = .ok ↔ coprime) ∧ (t.err ≠ .ok → t.err = .noinv)

/-- 41_ring_arithmetic.md R138: when INV returns b for a, MUL of a and b with the same MSEL gives ONE, for either range, wherever the
two then stand. -/
def Obligations.InvThenMulGivesOne : Prop :=
  ∀ (s t u : State) (m : MSel) (rep rep' : Rep) (rd ra x y re : Reg), s.params.Legal →
    exec (.inv m rep rd ra) s = .next t → t.err = .ok →
    u.params = s.params → u.reg x = s.reg ra → u.reg y = t.reg rd →
    ∃ v, exec (.mul m rep' re x y) u = .next v ∧ Completed .ok v ∧ v.reg re = onePoly s.params.n

/-- 42_inverse.md R157: every lifting schedule from modulus 2 to Q whose steps at most square the modulus ends with the unique
inverse modulo Q, the polynomial that INV's reference schedule gives. -/
def Obligations.LiftingScheduleIsFree : Prop :=
  ∀ (n qe : Nat) (a b : Poly) (es : List Nat), 1 ≤ n → 2 ≤ qe → invPrime n 2 a = some b → GoodSchedule qe 1 es →
    IsInverse n (2 ^ qe) a (liftSchedule n a es b) ∧
    (∀ b', IsInverse n (2 ^ qe) a b' → reducePoly n b' (2 ^ qe) .nonneg = liftSchedule n a es b) ∧
    invPow2 n qe a = some (liftSchedule n a es b)

/-- 42_inverse.md R158: a source whose coefficient sum is 0 modulo P has no inverse for MSEL = 0, and one whose coefficient sum is
even has none for MSEL = 1; the destination keeps its value. -/
def Obligations.NoInverseWhenCoefficientSumVanishes : Prop :=
  ∀ (s : State) (rep : Rep) (rd ra : Reg), s.params.Legal →
    ((s.params.p : Int) ∣ ∑ i ∈ Finset.range s.params.n, coef (s.reg ra) i →
      ∃ t, exec (.inv .p rep rd ra) s = .next t ∧ t.err = .noinv ∧ SameRegs s t) ∧
    ((2 : Int) ∣ ∑ i ∈ Finset.range s.params.n, coef (s.reg ra) i →
      ∃ t, exec (.inv .q rep rd ra) s = .next t ∧ t.err = .noinv ∧ SameRegs s t)
end

