-- ==== Sys2Proof/Laws/Arithmetic.lean ====
section
/-! SUPPORT. The arithmetic of operands: what `polyOf`, `reduce`, `conv` and `sext` do, said once. -/

namespace Sys2Proof.Machine

/-! ## Coefficients -/

@[simp] theorem length_polyOf (n : Nat) (f : Nat → Int) : (polyOf n f).length = n := by simp [polyOf]

theorem coef_polyOf (n : Nat) (f : Nat → Int) (i : Nat) :
    coef (polyOf n f) i = if i < n then f i else 0 := by
  by_cases h : i < n <;> simp [coef, polyOf, List.getD, h]

theorem coef_polyOf_lt {n i : Nat} (f : Nat → Int) (h : i < n) : coef (polyOf n f) i = f i := by
  simp [coef_polyOf, h]

theorem mem_polyOf {n : Nat} {f : Nat → Int} {x : Int} (h : x ∈ polyOf n f) : ∃ i < n, f i = x := by
  simpa [polyOf] using h

theorem polyOf_congr {n : Nat} {f g : Nat → Int} (h : ∀ i < n, f i = g i) : polyOf n f = polyOf n g :=
  List.map_congr_left fun i hi => h i (List.mem_range.mp hi)

theorem polyOf_inj {n : Nat} {f g : Nat → Int} : polyOf n f = polyOf n g ↔ ∀ i < n, f i = g i := by
  refine ⟨fun h i hi => ?_, polyOf_congr⟩
  rw [← coef_polyOf_lt f hi, ← coef_polyOf_lt g hi, h]

/-- A polynomial of exactly `n` coefficients is determined by them. -/
theorem polyOf_coef {n : Nat} {a : Poly} (h : a.length = n) : polyOf n (coef a) = a := by
  subst h
  apply List.ext_getElem <;> simp [polyOf, coef, List.getD]
  intro i hi
  simp [hi]

theorem coef_mem {a : Poly} {i : Nat} (h : i < a.length) : coef a i ∈ a := by
  simp [coef, List.getD, h]

theorem coef_of_length_le {a : Poly} {i : Nat} (h : a.length ≤ i) : coef a i = 0 := by
  simp [coef, List.getD, h]

@[simp] theorem coef_replicate_zero (n i : Nat) : coef (List.replicate n 0) i = 0 := by
  by_cases h : i < n <;> simp [coef, List.getD, h]

theorem coef_set (a : Poly) (i j : Nat) (x : Int) (h : i < a.length) :
    coef (a.set i x) j = if j = i then x else coef a j := by
  by_cases hj : j = i
  · subst hj; simp [coef, List.getD, h]
  · have : i ≠ j := fun e => hj e.symm
    simp [coef, List.getD, this, hj]

theorem coef_onePoly (n i : Nat) : coef (onePoly n) i = if i < n ∧ i = 0 then 1 else 0 := by
  simp only [onePoly, coef_polyOf]; split_ifs <;> simp_all

@[simp] theorem coef_zeroPoly (n i : Nat) : coef (zeroPoly n) i = 0 := by simp [zeroPoly, coef_polyOf]

/-! ## Canonical reduction (41_ring_arithmetic.md R130) -/

theorem reduce_dvd (x : Int) (m : Nat) (rep : Rep) : (m : Int) ∣ reduce x m rep - x := by
  have h : (m : Int) ∣ x % m - x := by
    refine ⟨-(x / m), ?_⟩
    have := Int.emod_add_mul_ediv x m
    linear_combination this
  cases rep
  · simp only [reduce]
    split
    · have : x % (m : Int) - m - x = (x % m - x) - m := by ring
      rw [this]; exact dvd_sub h (dvd_refl _)
    · exact h
  · exact h

theorem reduce_canonical (x : Int) {m : Nat} (rep : Rep) (hm : 1 ≤ m) : Canonical (reduce x m rep) m rep := by
  have h0 : 0 ≤ x % (m : Int) := Int.emod_nonneg _ (by omega)
  have h1 : x % (m : Int) < m := Int.emod_lt_of_pos _ (by omega)
  cases rep
  · simp only [reduce, Canonical]; split <;> omega
  · exact ⟨h0, h1⟩

theorem reduce_represents (x : Int) {m : Nat} (rep : Rep) (hm : 1 ≤ m) : Represents (reduce x m rep) x m rep :=
  ⟨reduce_canonical x rep hm, reduce_dvd x m rep⟩

/-- Two canonical numbers of one class are equal. -/
theorem canonical_unique {r r' : Int} {m : Nat} {rep : Rep} (h : Canonical r m rep) (h' : Canonical r' m rep)
    (hd : (m : Int) ∣ r - r') : r = r' := by
  obtain ⟨k, hk⟩ := hd
  have hlt : -(m : Int) < r - r' ∧ r - r' < m := by
    cases rep <;> simp only [Canonical] at h h' <;> omega
  have hk0 : k = 0 := by
    have hm : 0 < (m : Int) := by omega
    have h1 : k < 1 := by nlinarith
    have h2 : -1 < k := by nlinarith
    omega
  subst hk0
  omega

theorem reduce_unique {r x : Int} {m : Nat} {rep : Rep} (hm : 1 ≤ m) (h : Represents r x m rep) :
    r = reduce x m rep := by
  refine canonical_unique h.1 (reduce_canonical x rep hm) ?_
  have := dvd_sub h.2 (reduce_dvd x m rep)
  rwa [show r - x - (reduce x m rep - x) = r - reduce x m rep by ring] at this

/-- `reduce` depends on the class alone (41_ring_arithmetic.md R135). -/
theorem reduce_congr {x y : Int} {m : Nat} (rep : Rep) (hm : 1 ≤ m) (h : (m : Int) ∣ x - y) :
    reduce x m rep = reduce y m rep := by
  refine reduce_unique hm ⟨reduce_canonical x rep hm, ?_⟩
  have := dvd_add (reduce_dvd x m rep) h
  rwa [show reduce x m rep - x + (x - y) = reduce x m rep - y by ring] at this

theorem reduce_eq_iff {x y : Int} {m : Nat} {rep : Rep} (hm : 1 ≤ m) :
    reduce x m rep = reduce y m rep ↔ (m : Int) ∣ x - y := by
  refine ⟨fun h => ?_, reduce_congr rep hm⟩
  have := dvd_sub (reduce_dvd y m rep) (reduce_dvd x m rep)
  rw [h] at this
  rwa [show reduce y m rep - y - (reduce y m rep - x) = x - y by ring] at this

theorem reduce_reduce (x : Int) {m : Nat} (rep rep' : Rep) (hm : 1 ≤ m) :
    reduce (reduce x m rep) m rep' = reduce x m rep' :=
  reduce_congr rep' hm (reduce_dvd x m rep)

theorem reduce_of_canonical {x : Int} {m : Nat} {rep : Rep} (hm : 1 ≤ m) (h : Canonical x m rep) :
    reduce x m rep = x :=
  (reduce_unique hm ⟨h, by simp⟩).symm

theorem reduce_zero {m : Nat} (rep : Rep) (hm : 1 ≤ m) : reduce 0 m rep = 0 :=
  reduce_of_canonical hm (by cases rep <;> simp only [Canonical] <;> omega)

theorem reduce_one {m : Nat} (rep : Rep) (hm : 2 ≤ m) : reduce 1 m rep = 1 :=
  reduce_of_canonical (by omega) (by cases rep <;> simp only [Canonical] <;> omega)

theorem coef_reducePoly {n i : Nat} (a : Poly) (m : Nat) (rep : Rep) (h : i < n) :
    coef (reducePoly n a m rep) i = reduce (coef a i) m rep := coef_polyOf_lt _ h

@[simp] theorem length_reducePoly (n : Nat) (a : Poly) (m : Nat) (rep : Rep) :
    (reducePoly n a m rep).length = n := length_polyOf ..

/-- Two polynomials have the same reduced form exactly when they agree modulo m, coefficient by coefficient. -/
theorem reducePoly_eq_iff {n m : Nat} {rep : Rep} (hm : 1 ≤ m) (a b : Poly) :
    reducePoly n a m rep = reducePoly n b m rep ↔ ∀ i < n, (m : Int) ∣ coef a i - coef b i := by
  simp [reducePoly, polyOf_inj, reduce_eq_iff hm]

theorem reducePoly_onePoly {n m : Nat} (rep : Rep) (hm : 2 ≤ m) : reducePoly n (onePoly n) m rep = onePoly n := by
  refine polyOf_congr fun i hi => ?_
  simp only [coef_onePoly, hi, true_and]
  split
  · exact reduce_one rep hm
  · exact reduce_zero rep (by omega)

/-- Both moduli of a legal parameter set are at least 2 and at most 2^(CW-1) (00_scope.md R8, R10). -/
theorem modsel_bounds {c : Params} (h : c.Legal) (m : MSel) : 2 ≤ modsel c m ∧ modsel c m ≤ 2 ^ (c.cw - 1) := by
  have h2 := h.p_prime.two_le
  have h3 := h.p_lt_q
  have h4 := h.q_le
  cases m <;> simp only [modsel] <;> omega

/-- A canonical representative lies in the CW-bit range (41_ring_arithmetic.md R130). -/
theorem canonical_inCoefRange {c : Params} {r : Int} {m : Nat} {rep : Rep} (hm : m ≤ 2 ^ (c.cw - 1))
    (h : Canonical r m rep) : InCoefRange c r := by
  have hm' : (m : Int) ≤ 2 ^ (c.cw - 1) := by exact_mod_cast hm
  cases rep <;> simp only [Canonical] at h <;> constructor <;> omega

/-! ## Convolution (41_ring_arithmetic.md R131) -/

theorem convCoef_eq_sum (n : Nat) (a b : Poly) (i : Nat) :
    convCoef n a b i = ∑ j ∈ Finset.range n, coef a j * coef b ((i + n - j) % n) := by
  simp [convCoef, Finset.sum, Multiset.range, Finset.range]

/-- The index of the pseudocode, `(i - j) mod N`. -/
theorem conv_index {n i j : Nat} (hj : j < n) : (i + n - j) % n = (((i : Int) - j) % n).toNat := by
  have h : ((i + n - j : Nat) : Int) = (i : Int) - j + n := by omega
  have : (((i + n - j) % n : Nat) : Int) = ((i : Int) - j) % n := by
    rw [Int.natCast_mod, h, Int.add_emod_right]
  omega

/-- The convolution with the index of 41_ring_arithmetic.md R131. -/
theorem convCoef_eq_sum_mod {n i : Nat} (a b : Poly) :
    convCoef n a b i = ∑ j ∈ Finset.range n, coef a j * coef b (((i : Int) - j) % n).toNat := by
  rw [convCoef_eq_sum]
  exact Finset.sum_congr rfl fun j hj => by rw [conv_index (Finset.mem_range.mp hj)]

theorem coef_conv {n i : Nat} (a b : Poly) (h : i < n) : coef (conv n a b) i = convCoef n a b i := coef_polyOf_lt _ h

@[simp] theorem length_conv (n : Nat) (a b : Poly) : (conv n a b).length = n := length_polyOf ..

/-! ## The port's conversion (20_memory.md R66, R67) -/

theorem sext_spec (w v : Nat) (hw : 1 ≤ w) :
    -(2 ^ (w - 1) : Int) ≤ sext w v ∧ sext w v < (2 ^ (w - 1) : Int) ∧ (2 ^ w : Int) ∣ sext w v - v := by
  obtain ⟨k, rfl⟩ : ∃ k, w = k + 1 := ⟨w - 1, by omega⟩
  have hpos : 0 < 2 ^ k := Nat.two_pow_pos k
  have hlt : v % 2 ^ (k + 1) < 2 ^ (k + 1) := Nat.mod_lt _ (Nat.two_pow_pos _)
  have hdv : ((2 ^ (k + 1) : Nat) : Int) ∣ ((v % 2 ^ (k + 1) : Nat) : Int) - v := by
    have := Nat.mod_add_div v (2 ^ (k + 1))
    refine ⟨-((v / 2 ^ (k + 1) : Nat) : Int), ?_⟩
    have h2 : (v : Int) = ((v % 2 ^ (k + 1) : Nat) : Int) + ((2 ^ (k + 1) : Nat) : Int) * ((v / 2 ^ (k + 1) : Nat) : Int) := by
      exact_mod_cast this.symm
    linear_combination -h2
  have e : (2 ^ (k + 1) : Nat) = 2 * 2 ^ k := by ring
  have e1 : (2 : Int) ^ (k + 1 - 1) = ((2 ^ k : Nat) : Int) := by simp
  have e2 : (2 : Int) ^ (k + 1) = ((2 ^ (k + 1) : Nat) : Int) := by simp
  rw [e1, e2]
  simp only [sext]
  split
  · refine ⟨by omega, by omega, ?_⟩
    rw [show ((v % 2 ^ (k + 1) : Nat) : Int) - ((2 ^ (k + 1) : Nat) : Int) - v
      = (((v % 2 ^ (k + 1) : Nat) : Int) - v) - ((2 ^ (k + 1) : Nat) : Int) by ring]
    exact dvd_sub hdv (dvd_refl _)
  · exact ⟨by omega, by omega, hdv⟩

theorem coefOfWord_inRange {c : Params} (h : c.Legal) (v : Word) : InCoefRange c (coefOfWord c v) :=
  have hw : 1 ≤ c.cw := by have := h.three_le_cw; omega
  ⟨(sext_spec c.cw v.toNat hw).1, (sext_spec c.cw v.toNat hw).2.1⟩

theorem wordOfCoef_toInt {c : Params} (h : c.Legal) {x : Int} (hx : InCoefRange c x) : (wordOfCoef x).toInt = x := by
  have hle : (2 : Int) ^ (c.cw - 1) ≤ 2 ^ 31 := by
    have := h.cw_le
    exact pow_le_pow_right₀ (by norm_num) (by omega)
  have h1 := hx.1
  have h2 := hx.2
  rw [wordOfCoef, BitVec.toInt_ofInt]
  rw [Int.bmod_eq_of_le] <;> norm_num at * <;> omega

end Sys2Proof.Machine
end

