-- ==== Sys2Proof/Laws/Encoding.lean ====
section
/-! SUPPORT. The encoding as arithmetic on the word's number: bits, fields, what each row of the opcode table fixes, and what
`encode` packs (30_encoding.md R90, R95). -/

namespace Sys2Proof

/-! ## Bits and fields -/

theorem toNat_bit (w : Word) (k : Nat) : w.toNat / 2 ^ k % 2 = if w.getLsbD k then 1 else 0 := by
  rw [BitVec.getLsbD, Nat.testBit]
  simp only [Nat.shiftRight_eq_div_pow, Nat.one_and_eq_mod_two]
  rcases Nat.mod_two_eq_zero_or_one (w.toNat / 2 ^ k) with h | h <;> simp [h]

theorem bitField_eq (w : Word) (lo len : Nat) : bitField w lo len = w.toNat / 2 ^ lo % 2 ^ len := by
  simp [bitField, BitVec.extractLsb'_toNat, Nat.shiftRight_eq_div_pow]

/-- A word has a row's fixed bits exactly when every bit under the mask is the pattern's. -/
theorem masked_eq_iff {w m p : Word} (hp : p &&& m = p) :
    w &&& m = p ↔ ∀ k < 32, m.getLsbD k = true → w.getLsbD k = p.getLsbD k := by
  constructor
  · intro h k _ hm
    rw [← h]
    simp [hm]
  · intro h
    apply BitVec.eq_of_getLsbD_eq
    intro k hk
    have hp' : p.getLsbD k = (p.getLsbD k && m.getLsbD k) := by rw [← BitVec.getLsbD_and, hp]
    rw [BitVec.getLsbD_and, hp']
    cases hm : m.getLsbD k with
    | false => simp
    | true => simp [h k hk hm]

/-- The reserved bits of R90 are all 0. -/
abbrev ReservedZero (w : Word) : Prop :=
  w.toNat / 2 ^ 6 % 4 = 0 ∧ w.toNat / 2 ^ 11 % 2 = 0 ∧ w.toNat / 2 ^ 15 % 2 = 0 ∧ w.toNat / 2 ^ 19 = 0

/-- What the mask of ADD and MUL fixes (R95). -/
theorem masked_three_iff (w : Word) {op : Nat} (hop : op < 16) :
    w &&& 0xFFF888CF = BitVec.ofNat 32 op ↔ w.toNat % 16 = op ∧ ReservedZero w := by
  have hw := w.isLt
  have hp : BitVec.ofNat 32 op &&& 0xFFF888CF = BitVec.ofNat 32 op := by interval_cases op <;> decide
  rw [masked_eq_iff hp]
  have key : ∀ k : Nat, (w.getLsbD k = (BitVec.ofNat 32 op).getLsbD k) ↔
      w.toNat / 2 ^ k % 2 = (BitVec.ofNat 32 op).toNat / 2 ^ k % 2 := by
    intro k
    rw [toNat_bit, toNat_bit]
    cases w.getLsbD k <;> cases (BitVec.ofNat 32 op).getLsbD k <;> simp
  have hop32 : (BitVec.ofNat 32 op).toNat = op := by simp; omega
  simp only [key, hop32, ReservedZero]
  constructor
  · intro h
    have h0 := h 0 (by omega) (by decide)
    have h1 := h 1 (by omega) (by decide)
    have h2 := h 2 (by omega) (by decide)
    have h3 := h 3 (by omega) (by decide)
    have h6 := h 6 (by omega) (by decide)
    have h7 := h 7 (by omega) (by decide)
    have h11 := h 11 (by omega) (by decide)
    have h15 := h 15 (by omega) (by decide)
    have h19 := h 19 (by omega) (by decide)
    have h20 := h 20 (by omega) (by decide)
    have h21 := h 21 (by omega) (by decide)
    have h22 := h 22 (by omega) (by decide)
    have h23 := h 23 (by omega) (by decide)
    have h24 := h 24 (by omega) (by decide)
    have h25 := h 25 (by omega) (by decide)
    have h26 := h 26 (by omega) (by decide)
    have h27 := h 27 (by omega) (by decide)
    have h28 := h 28 (by omega) (by decide)
    have h29 := h 29 (by omega) (by decide)
    have h30 := h 30 (by omega) (by decide)
    have h31 := h 31 (by omega) (by decide)
    omega
  · rintro ⟨h0, h6, h11, h15, h19⟩ k hk hm
    have : k < 4 ∨ k = 6 ∨ k = 7 ∨ k = 11 ∨ k = 15 ∨ 19 ≤ k := by
      by_contra hc
      have : k = 4 ∨ k = 5 ∨ k = 8 ∨ k = 9 ∨ k = 10 ∨ k = 12 ∨ k = 13 ∨ k = 14 ∨ k = 16 ∨ k = 17 ∨ k = 18 := by omega
      rcases this with rfl | rfl | rfl | rfl | rfl | rfl | rfl | rfl | rfl | rfl | rfl <;> revert hm <;> decide
    interval_cases k <;> omega

/-- What the mask of RED and INV fixes: RB too (R95). -/
theorem masked_two_iff (w : Word) {op : Nat} (hop : op < 16) :
    w &&& 0xFFFF88CF = BitVec.ofNat 32 op ↔ w.toNat % 16 = op ∧ ReservedZero w ∧ w.toNat / 2 ^ 16 % 8 = 0 := by
  have hp : BitVec.ofNat 32 op &&& 0xFFFF88CF = BitVec.ofNat 32 op := by interval_cases op <;> decide
  have hp3 : BitVec.ofNat 32 op &&& 0xFFF888CF = BitVec.ofNat 32 op := by interval_cases op <;> decide
  rw [← and_assoc, ← masked_three_iff w hop, masked_eq_iff hp, masked_eq_iff hp3]
  have hrb : w.toNat / 2 ^ 16 % 8 = 0 ↔ w.getLsbD 16 = false ∧ w.getLsbD 17 = false ∧ w.getLsbD 18 = false := by
    have h16 := toNat_bit w 16
    have h17 := toNat_bit w 17
    have h18 := toNat_bit w 18
    cases h1 : w.getLsbD 16 <;> cases h2 : w.getLsbD 17 <;> cases h3 : w.getLsbD 18 <;>
      simp only [h1, h2, h3, if_true, if_false, Bool.false_eq_true, reduceCtorEq, and_false, and_true, iff_false,
        iff_true] at * <;> omega
  have hz : ∀ k, 16 ≤ k → k ≤ 18 → (BitVec.ofNat 32 op).getLsbD k = false := by
    intro k h1 h2
    interval_cases op <;> interval_cases k <;> decide
  rw [hrb]
  constructor
  · intro h
    refine ⟨fun k hk hm => h k hk ?_, ?_, ?_, ?_⟩
    · interval_cases k <;> revert hm <;> decide
    · rw [h 16 (by omega) (by decide), hz 16 (by omega) (by omega)]
    · rw [h 17 (by omega) (by decide), hz 17 (by omega) (by omega)]
    · rw [h 18 (by omega) (by decide), hz 18 (by omega) (by omega)]
  · rintro ⟨h, h16, h17, h18⟩ k hk hm
    by_cases hc : 16 ≤ k ∧ k ≤ 18
    · rw [hz k hc.1 hc.2]
      obtain rfl | rfl | rfl : k = 16 ∨ k = 17 ∨ k = 18 := by omega
      · exact h16
      · exact h17
      · exact h18
    · refine h k hk ?_
      have : k < 16 ∨ 18 < k := by omega
      interval_cases k <;> first | omega | (revert hm; decide)

/-! ## The decoder and the encoder -/

/-- Which words are legal, and what they decode to, as arithmetic on the word's number (R95, R96). -/
theorem decode_cases (w : Word) :
    (w.toNat = 0 ∧ decode w = .ok .nop) ∨
    (w.toNat % 16 = 1 ∧ ReservedZero w ∧ decode w = .ok (buildInstr .add w)) ∨
    (w.toNat % 16 = 2 ∧ ReservedZero w ∧ decode w = .ok (buildInstr .mul w)) ∨
    (w.toNat % 16 = 3 ∧ ReservedZero w ∧ w.toNat / 2 ^ 16 % 8 = 0 ∧ decode w = .ok (buildInstr .red w)) ∨
    (w.toNat % 16 = 4 ∧ ReservedZero w ∧ w.toNat / 2 ^ 16 % 8 = 0 ∧ decode w = .ok (buildInstr .inv w)) ∨
    (decode w = .error (illegalReason w) ∧ w.toNat ≠ 0 ∧
      ¬(w.toNat % 16 = 1 ∧ ReservedZero w) ∧ ¬(w.toNat % 16 = 2 ∧ ReservedZero w) ∧
      ¬(w.toNat % 16 = 3 ∧ ReservedZero w ∧ w.toNat / 2 ^ 16 % 8 = 0) ∧
      ¬(w.toNat % 16 = 4 ∧ ReservedZero w ∧ w.toNat / 2 ^ 16 % 8 = 0)) := by
  have e0 : (w &&& 0xFFFFFFFF == 0x00000000) = decide (w.toNat = 0) := by
    have : (w &&& 0xFFFFFFFF : Word) = w := BitVec.and_allOnes
    rw [this, beq_eq_decide]
    congr 1
    exact propext ⟨fun h => by rw [h]; rfl, fun h => BitVec.eq_of_toNat_eq h⟩
  have e1 := masked_three_iff w (op := 1) (by omega)
  have e2 := masked_three_iff w (op := 2) (by omega)
  have e3 := masked_two_iff w (op := 3) (by omega)
  have e4 := masked_two_iff w (op := 4) (by omega)
  have b1 : (w &&& 0xFFF888CF == (0x00000001 : Word)) = decide (w.toNat % 16 = 1 ∧ ReservedZero w) := by
    rw [beq_eq_decide]; exact decide_eq_decide.mpr e1
  have b2 : (w &&& 0xFFF888CF == (0x00000002 : Word)) = decide (w.toNat % 16 = 2 ∧ ReservedZero w) := by
    rw [beq_eq_decide]; exact decide_eq_decide.mpr e2
  have b3 : (w &&& 0xFFFF88CF == (0x00000003 : Word))
      = decide (w.toNat % 16 = 3 ∧ ReservedZero w ∧ w.toNat / 2 ^ 16 % 8 = 0) := by
    rw [beq_eq_decide]; exact decide_eq_decide.mpr e3
  have b4 : (w &&& 0xFFFF88CF == (0x00000004 : Word))
      = decide (w.toNat % 16 = 4 ∧ ReservedZero w ∧ w.toNat / 2 ^ 16 % 8 = 0) := by
    rw [beq_eq_decide]; exact decide_eq_decide.mpr e4
  simp only [decode, rows, List.find?, Row.accepts, e0, b1, b2, b3, b4]
  by_cases h0 : w.toNat = 0
  · exact .inl ⟨h0, by rw [decide_eq_true h0]; rfl⟩
  by_cases h1 : w.toNat % 16 = 1 ∧ ReservedZero w
  · exact .inr (.inl ⟨h1.1, h1.2, by rw [decide_eq_false h0, decide_eq_true h1]⟩)
  by_cases h2 : w.toNat % 16 = 2 ∧ ReservedZero w
  · exact .inr (.inr (.inl ⟨h2.1, h2.2, by rw [decide_eq_false h0, decide_eq_false h1, decide_eq_true h2]⟩))
  by_cases h3 : w.toNat % 16 = 3 ∧ ReservedZero w ∧ w.toNat / 2 ^ 16 % 8 = 0
  · exact .inr (.inr (.inr (.inl ⟨h3.1, h3.2.1, h3.2.2, by
      rw [decide_eq_false h0, decide_eq_false h1, decide_eq_false h2, decide_eq_true h3]⟩)))
  by_cases h4 : w.toNat % 16 = 4 ∧ ReservedZero w ∧ w.toNat / 2 ^ 16 % 8 = 0
  · exact .inr (.inr (.inr (.inr (.inl ⟨h4.1, h4.2.1, h4.2.2, by
      rw [decide_eq_false h0, decide_eq_false h1, decide_eq_false h2, decide_eq_false h3, decide_eq_true h4]⟩))))
  · exact .inr (.inr (.inr (.inr (.inr ⟨by
      rw [decide_eq_false h0, decide_eq_false h1, decide_eq_false h2, decide_eq_false h3, decide_eq_false h4],
      h0, h1, h2, h3, h4⟩))))

/-- What `encode` packs, as arithmetic (R90). -/
theorem assemble_toNat {f : CommandFields} (h : f.wellFormed = true) :
    f.assemble.toNat = f.op + f.msel * 2 ^ 4 + f.rep * 2 ^ 5 + f.rd * 2 ^ 8 + f.ra * 2 ^ 12 + f.rb * 2 ^ 16 := by
  obtain ⟨op, ms, rp, d, a, b⟩ := f
  simp only [CommandFields.wellFormed, CommandFields.opDefined, CommandFields.optionsFit, CommandFields.registersFit,
    Bool.and_eq_true, decide_eq_true_eq] at h
  obtain ⟨⟨⟨h1, h2, h3⟩, ⟨h4, h5⟩, h6⟩, -⟩ := h
  have key : ∀ (x y s c : Nat), x < 2 ^ s → y < 2 ^ c → s + c ≤ 32 →
      BitVec.ofNat 32 x ||| BitVec.ofNat 32 y <<< s = BitVec.ofNat 32 (x + y * 2 ^ s) := by
    intro x y s c hx hy hs
    have h32 : 2 ^ (s + c) ≤ 2 ^ 32 := Nat.pow_le_pow_right (by omega) hs
    have hpos : 0 < 2 ^ s := Nat.two_pow_pos s
    have hc : 2 ^ c ≤ 2 ^ 32 := Nat.pow_le_pow_right (by omega) (by omega)
    have hxy : x + y * 2 ^ s < 2 ^ (s + c) := by
      have : (y + 1) * 2 ^ s ≤ 2 ^ c * 2 ^ s := Nat.mul_le_mul_right _ hy
      rw [pow_add, Nat.mul_comm (2 ^ s)]
      nlinarith
    apply BitVec.eq_of_toNat_eq
    simp only [BitVec.toNat_or, BitVec.toNat_ofNat, BitVec.toNat_shiftLeft, Nat.shiftLeft_eq]
    rw [Nat.mod_eq_of_lt (show x < 2 ^ 32 by omega), Nat.mod_eq_of_lt (show y < 2 ^ 32 by omega),
      Nat.mod_eq_of_lt (show y * 2 ^ s < 2 ^ 32 by omega), Nat.mod_eq_of_lt (show x + y * 2 ^ s < 2 ^ 32 by omega),
      Nat.add_comm, Nat.lor_comm, Nat.mul_comm, Nat.two_pow_add_eq_or_of_lt hx]
  simp only [CommandFields.assemble]
  rw [key op ms 4 1 (by omega) (by omega) (by omega), key _ rp 5 1 (by omega) (by omega) (by omega),
    key _ d 8 3 (by omega) (by omega) (by omega), key _ a 12 3 (by omega) (by omega) (by omega),
    key _ b 16 3 (by omega) (by omega) (by omega), BitVec.toNat_ofNat]
  exact Nat.mod_eq_of_lt (by omega)

end Sys2Proof
end

