-- ==== Sys2Proof/Laws/Ring.lean ====
section
/-! SUPPORT. Polynomials of an NRE as elements of R[x]/(x^N - 1): convolution is its product, and agreement modulo m is its
equality over Z/m (41_ring_arithmetic.md R131, R135; 42_inverse.md R151). -/

namespace Sys2Proof.Machine

open Polynomial

/-! ## Classes in R[x]/(x^n - 1) -/

/-- The modulus polynomial x^n - 1. -/
noncomputable abbrev cycPoly (n : Nat) (R : Type) [CommRing R] : R[X] := X ^ n - 1

theorem cycPoly_monic {n : Nat} (R : Type) [CommRing R] (hn : 1 ≤ n) : (cycPoly n R).Monic :=
  monic_X_pow_sub_C 1 (by omega)

theorem cycPoly_degree {n : Nat} (R : Type) [CommRing R] [Nontrivial R] (hn : 1 ≤ n) : (cycPoly n R).degree = n :=
  degree_X_pow_sub_C (by omega) 1

/-- The polynomial of the first `n` values of a function. -/
noncomputable def polyFn (n : Nat) (R : Type) [CommRing R] (f : Nat → R) : R[X] :=
  ∑ i ∈ Finset.range n, C (f i) * X ^ i

/-- The polynomial over R of a coefficient list. -/
noncomputable def polyIn (n : Nat) (R : Type) [CommRing R] (a : Poly) : R[X] :=
  polyFn n R fun i => ((coef a i : Int) : R)

theorem coeff_polyFn (n : Nat) (R : Type) [CommRing R] (f : Nat → R) (i : Nat) :
    (polyFn n R f).coeff i = if i < n then f i else 0 := by
  simp [polyFn, coeff_C_mul, coeff_X_pow]

theorem degree_polyFn_lt (n : Nat) (R : Type) [CommRing R] (f : Nat → R) : (polyFn n R f).degree < n := by
  rw [degree_lt_iff_coeff_zero]
  intro m hm
  rw [coeff_polyFn, if_neg (by omega)]

/-- x^n - 1 divides no nonzero polynomial of degree below n. -/
theorem eq_of_cycPoly_dvd_sub {n : Nat} {R : Type} [CommRing R] (hn : 1 ≤ n) {f g : R[X]} (hf : f.degree < n)
    (hg : g.degree < n) (h : cycPoly n R ∣ f - g) : f = g := by
  nontriviality R
  by_contra hne
  have hd : (f - g).degree < (cycPoly n R).degree := by
    rw [cycPoly_degree R hn]; exact lt_of_le_of_lt (degree_sub_le f g) (max_lt hf hg)
  exact (cycPoly_monic R hn).not_dvd_of_degree_lt (sub_ne_zero.mpr hne) hd h

theorem cycPoly_dvd_polyFn_sub_iff {n : Nat} {R : Type} [CommRing R] (hn : 1 ≤ n) (f g : Nat → R) :
    cycPoly n R ∣ polyFn n R f - polyFn n R g ↔ ∀ i < n, f i = g i := by
  constructor
  · intro h i hi
    have := eq_of_cycPoly_dvd_sub hn (degree_polyFn_lt n R f) (degree_polyFn_lt n R g) h
    have h2 := congrArg (fun p => p.coeff i) this
    simpa [coeff_polyFn, hi] using h2
  · intro h
    have : polyFn n R f = polyFn n R g := Finset.sum_congr rfl fun i hi => by rw [h i (Finset.mem_range.mp hi)]
    simp [this]

/-- Exponents wrap: x^k ≡ x^(k mod n). -/
theorem cycPoly_dvd_X_pow_sub (n : Nat) (R : Type) [CommRing R] (k : Nat) :
    cycPoly n R ∣ X ^ k - X ^ (k % n) := by
  conv_rhs => rw [← Nat.mod_add_div k n]
  have h : (X : R[X]) ^ (k % n + n * (k / n)) - X ^ ((k % n + n * (k / n)) % n)
      = X ^ (k % n) * ((X ^ n) ^ (k / n) - 1) := by
    have e : (k % n + n * (k / n)) % n = k % n := by rw [Nat.mod_add_div]
    rw [e, pow_add, pow_mul]; ring
  rw [h]
  exact Dvd.dvd.mul_left (by simpa using sub_dvd_pow_sub_pow ((X : R[X]) ^ n) 1 (k / n)) _

/-- The product of two polynomials is their cyclic convolution modulo x^n - 1. -/
theorem cycPoly_dvd_mul_sub {n : Nat} (R : Type) [CommRing R] (f g : Nat → R) :
    cycPoly n R ∣ polyFn n R f * polyFn n R g -
      polyFn n R fun i => ∑ j ∈ Finset.range n, f j * g ((i + n - j) % n) := by
  have key : polyFn n R (fun i => ∑ j ∈ Finset.range n, f j * g ((i + n - j) % n))
      = ∑ j ∈ Finset.range n, ∑ k ∈ Finset.range n, C (f j * g k) * X ^ ((j + k) % n) := by
    simp only [polyFn, map_sum, Finset.sum_mul]
    rw [Finset.sum_comm]
    refine Finset.sum_congr rfl fun j hj => ?_
    have hj' := Finset.mem_range.mp hj
    refine Finset.sum_bij' (fun i _ => (i + n - j) % n) (fun k _ => (j + k) % n) ?_ ?_ ?_ ?_ ?_
    · intro i hi; exact Finset.mem_range.mpr (Nat.mod_lt _ (by omega))
    · intro k hk; exact Finset.mem_range.mpr (Nat.mod_lt _ (by omega))
    · intro i hi
      have hi' := Finset.mem_range.mp hi
      show (j + (i + n - j) % n) % n = i
      rw [Nat.add_mod_mod, show j + (i + n - j) = i + n by omega, Nat.add_mod_right, Nat.mod_eq_of_lt hi']
    · intro k hk
      have hk' := Finset.mem_range.mp hk
      show ((j + k) % n + n - j) % n = k
      by_cases h : j + k < n
      · rw [Nat.mod_eq_of_lt h, show j + k + n - j = k + n by omega, Nat.add_mod_right, Nat.mod_eq_of_lt hk']
      · have e : (j + k) % n = j + k - n := by rw [Nat.mod_eq_sub_mod (by omega), Nat.mod_eq_of_lt (by omega)]
        rw [e, show j + k - n + n - j = k by omega, Nat.mod_eq_of_lt hk']
    · intro i hi
      have hi' := Finset.mem_range.mp hi
      have : (j + (i + n - j) % n) % n = i := by
        rw [Nat.add_mod_mod, show j + (i + n - j) = i + n by omega, Nat.add_mod_right, Nat.mod_eq_of_lt hi']
      show C (f j * g ((i + n - j) % n)) * X ^ i = C (f j * g ((i + n - j) % n)) * X ^ ((j + (i + n - j) % n) % n)
      rw [this]
  have hmul : polyFn n R f * polyFn n R g
      = ∑ j ∈ Finset.range n, ∑ k ∈ Finset.range n, C (f j * g k) * X ^ (j + k) := by
    simp only [polyFn, Finset.sum_mul_sum]
    refine Finset.sum_congr rfl fun j _ => Finset.sum_congr rfl fun k _ => ?_
    rw [C_mul, pow_add]; ring
  rw [key, hmul, ← Finset.sum_sub_distrib]
  refine Finset.dvd_sum fun j _ => ?_
  rw [← Finset.sum_sub_distrib]
  refine Finset.dvd_sum fun k _ => ?_
  rw [← mul_sub]
  exact Dvd.dvd.mul_left (cycPoly_dvd_X_pow_sub n R (j + k)) _

/-- The class of a coefficient list in R[x]/(x^n - 1). -/
noncomputable def cls (n : Nat) (R : Type) [CommRing R] (a : Poly) : AdjoinRoot (cycPoly n R) :=
  AdjoinRoot.mk _ (polyIn n R a)

theorem cls_eq_iff {n : Nat} {R : Type} [CommRing R] (hn : 1 ≤ n) (a b : Poly) :
    cls n R a = cls n R b ↔ ∀ i < n, ((coef a i : Int) : R) = ((coef b i : Int) : R) := by
  rw [cls, cls, AdjoinRoot.mk_eq_mk]
  exact cycPoly_dvd_polyFn_sub_iff hn _ _

theorem polyIn_polyOf (n : Nat) (R : Type) [CommRing R] (f : Nat → Int) :
    polyIn n R (polyOf n f) = polyFn n R fun i => ((f i : Int) : R) := by
  simp only [polyIn, polyFn]
  exact Finset.sum_congr rfl fun i hi => by rw [coef_polyOf_lt f (Finset.mem_range.mp hi)]

/-- Convolution is the product of the ring (41_ring_arithmetic.md R131). -/
theorem cls_conv (n : Nat) (R : Type) [CommRing R] (a b : Poly) : cls n R (conv n a b) = cls n R a * cls n R b := by
  rw [cls, cls, cls, ← map_mul, eq_comm, AdjoinRoot.mk_eq_mk, conv, polyIn_polyOf]
  have := cycPoly_dvd_mul_sub R (n := n) (fun i => ((coef a i : Int) : R)) (fun i => ((coef b i : Int) : R))
  have e : (fun i => ((convCoef n a b i : Int) : R))
      = fun i => ∑ j ∈ Finset.range n, ((coef a j : Int) : R) * ((coef b ((i + n - j) % n) : Int) : R) := by
    funext i
    rw [convCoef_eq_sum]
    push_cast
    rfl
  rw [e]
  exact this

theorem cls_sumPoly (n : Nat) (R : Type) [CommRing R] (a b : Poly) :
    cls n R (sumPoly n a b) = cls n R a + cls n R b := by
  rw [cls, cls, cls, ← map_add, sumPoly, polyIn_polyOf]
  congr 1
  simp only [polyIn, polyFn, ← Finset.sum_add_distrib]
  refine Finset.sum_congr rfl fun i _ => ?_
  push_cast
  rw [C_add, add_mul]

theorem polyIn_onePoly {n : Nat} (R : Type) [CommRing R] (hn : 1 ≤ n) : polyIn n R (onePoly n) = 1 := by
  ext i
  rw [polyIn, coeff_polyFn, coeff_one, coef_onePoly]
  by_cases h : i = 0
  · subst h; simp [show 0 < n by omega]
  · simp [h]

@[simp] theorem cls_onePoly {n : Nat} (R : Type) [CommRing R] (hn : 1 ≤ n) : cls n R (onePoly n) = 1 := by
  rw [cls, polyIn_onePoly R hn, map_one]

@[simp] theorem cls_zeroPoly (n : Nat) (R : Type) [CommRing R] : cls n R (zeroPoly n) = 0 := by
  rw [cls, ← map_zero (AdjoinRoot.mk (cycPoly n R))]
  congr 1
  simp [polyIn, polyFn]

/-! ## Agreement modulo m -/

theorem cls_zmod_eq_iff {n m : Nat} (hn : 1 ≤ n) (a b : Poly) :
    cls n (ZMod m) a = cls n (ZMod m) b ↔ ∀ i < n, (m : Int) ∣ coef a i - coef b i := by
  rw [cls_eq_iff hn]
  refine forall₂_congr fun i _ => ?_
  rw [eq_comm, ZMod.intCast_eq_intCast_iff_dvd_sub]

/-- Equal reduced forms are equal classes over Z/m (41_ring_arithmetic.md R135). -/
theorem reducePoly_eq_iff_cls {n m : Nat} {rep : Rep} (hn : 1 ≤ n) (hm : 1 ≤ m) (a b : Poly) :
    reducePoly n a m rep = reducePoly n b m rep ↔ cls n (ZMod m) a = cls n (ZMod m) b := by
  rw [reducePoly_eq_iff hm, cls_zmod_eq_iff hn]

@[simp] theorem cls_reducePoly {n m : Nat} (hn : 1 ≤ n) (a : Poly) (rep : Rep) :
    cls n (ZMod m) (reducePoly n a m rep) = cls n (ZMod m) a := by
  rw [cls_zmod_eq_iff hn]
  intro i hi
  rw [coef_reducePoly a m rep hi]
  exact reduce_dvd _ _ _

/-- The definition of an inverse (42_inverse.md R151), in the ring Z_m[x]/(x^N - 1). -/
theorem isInverse_iff {n m : Nat} (hn : 1 ≤ n) (hm : 2 ≤ m) (a b : Poly) :
    IsInverse n m a b ↔ cls n (ZMod m) a * cls n (ZMod m) b = 1 := by
  rw [IsInverse, ← reducePoly_onePoly (n := n) .nonneg hm, reducePoly_eq_iff_cls hn (by omega), cls_conv,
    cls_onePoly _ hn]

/-- An inverse may be reduced into either range. -/
theorem isInverse_reducePoly {n m : Nat} (hn : 1 ≤ n) (hm : 2 ≤ m) (a b : Poly) (rep : Rep) :
    IsInverse n m a (reducePoly n b m rep) ↔ IsInverse n m a b := by
  rw [isInverse_iff hn hm, isInverse_iff hn hm, cls_reducePoly hn]

/-- The inverse is one class (42_inverse.md R151). -/
theorem isInverse_unique {n m : Nat} (hn : 1 ≤ n) (hm : 2 ≤ m) {a b b' : Poly} (h : IsInverse n m a b)
    (h' : IsInverse n m a b') (rep : Rep) : reducePoly n b m rep = reducePoly n b' m rep := by
  rw [isInverse_iff hn hm] at h h'
  rw [reducePoly_eq_iff_cls hn (by omega)]
  calc cls n (ZMod m) b = cls n (ZMod m) b * (cls n (ZMod m) a * cls n (ZMod m) b') := by rw [h', mul_one]
    _ = (cls n (ZMod m) a * cls n (ZMod m) b) * cls n (ZMod m) b' := by ring
    _ = cls n (ZMod m) b' := by rw [h, one_mul]

/-- Every class of the ring is that of a polynomial of n coefficients below m. -/
theorem exists_poly_of_cls {n m : Nat} (hn : 1 ≤ n) (hm : 2 ≤ m) (x : AdjoinRoot (cycPoly n (ZMod m))) :
    ∃ b : Poly, b.length = n ∧ cls n (ZMod m) b = x := by
  have : NeZero m := ⟨by omega⟩
  have : Fact (1 < m) := ⟨by omega⟩
  obtain ⟨f, rfl⟩ := AdjoinRoot.mk_surjective x
  let r := f %ₘ cycPoly n (ZMod m)
  refine ⟨polyOf n fun i => ((r.coeff i).val : Int), by simp, ?_⟩
  have hr : r.degree < n := by
    rw [← cycPoly_degree (ZMod m) hn]; exact degree_modByMonic_lt f (cycPoly_monic _ hn)
  have hp : polyIn n (ZMod m) (polyOf n fun i => ((r.coeff i).val : Int)) = r := by
    rw [polyIn_polyOf]
    ext i
    rw [coeff_polyFn]
    split
    · simp
    · rw [(degree_lt_iff_coeff_zero r n).mp hr i (by omega)]
  rw [cls, hp, AdjoinRoot.mk_eq_mk]
  exact ⟨-(f /ₘ cycPoly n (ZMod m)), by
    have := modByMonic_add_div f (cycPoly n (ZMod m))
    linear_combination this⟩

/-- A polynomial is invertible exactly when its class is a unit (42_inverse.md R151). -/
theorem invertible_iff {n m : Nat} (hn : 1 ≤ n) (hm : 2 ≤ m) (a : Poly) :
    Invertible n m a ↔ ∃ x, cls n (ZMod m) a * x = 1 := by
  constructor
  · rintro ⟨b, -, h⟩
    exact ⟨_, (isInverse_iff hn hm a b).mp h⟩
  · rintro ⟨x, h⟩
    obtain ⟨b, hb, rfl⟩ := exists_poly_of_cls hn hm x
    exact ⟨b, hb, (isInverse_iff hn hm a b).mpr h⟩

/-- Invertible means coprime to x^N - 1 (42_inverse.md R152, R154). -/
theorem invertible_iff_isCoprime {n m : Nat} (hn : 1 ≤ n) (hm : 2 ≤ m) (a : Poly) :
    Invertible n m a ↔ IsCoprime (polyIn n (ZMod m) a) (cycPoly n (ZMod m)) := by
  rw [invertible_iff hn hm]
  constructor
  · rintro ⟨x, h⟩
    obtain ⟨g, rfl⟩ := AdjoinRoot.mk_surjective x
    rw [cls, ← map_mul, ← map_one (AdjoinRoot.mk (cycPoly n (ZMod m))), AdjoinRoot.mk_eq_mk] at h
    obtain ⟨k, hk⟩ := h
    exact ⟨g, -k, by linear_combination hk⟩
  · rintro ⟨g, k, h⟩
    refine ⟨AdjoinRoot.mk _ g, ?_⟩
    rw [cls, ← map_mul, ← map_one (AdjoinRoot.mk (cycPoly n (ZMod m))), AdjoinRoot.mk_eq_mk]
    exact ⟨-k, by linear_combination h⟩

end Sys2Proof.Machine
end

