-- ==== Sys2Proof/Laws/Galois.lean ====
section
/-! SUPPORT. The polynomial arithmetic of 42_inverse.md R153 over GF(p)[x], and the extended Euclidean algorithm: what `invPrime`
answers is the inverse modulo p, and it answers none only if there is none (R151, R152). -/

namespace Sys2Proof.Machine

open Polynomial

/-- The polynomial over GF(p) of a coefficient list, lowest degree first. -/
noncomputable def gpoly (p : Nat) : GPoly → (ZMod p)[X]
  | [] => 0
  | c :: cs => C (c : ZMod p) + X * gpoly p cs

/-- Every coefficient is below p. -/
def GReduced (p : Nat) (a : GPoly) : Prop := ∀ x ∈ a, x < p

/-- The last coefficient is not 0. -/
def GTrimmed (a : GPoly) : Prop := a ≠ [] → glead a ≠ 0

/-! ## The operations -/

@[simp] theorem gpoly_nil (p : Nat) : gpoly p [] = 0 := rfl
@[simp] theorem gpoly_cons (p c : Nat) (cs : GPoly) : gpoly p (c :: cs) = C (c : ZMod p) + X * gpoly p cs := rfl

theorem coeff_gpoly (p : Nat) (a : GPoly) (i : Nat) : (gpoly p a).coeff i = (gcoef a i : ZMod p) := by
  induction a generalizing i with
  | nil => simp [gcoef]
  | cons c cs ih =>
    cases i with
    | zero => simp [gcoef]
    | succ i => simpa [gcoef, coeff_C] using ih i

theorem gpoly_gtrim (p : Nat) (a : GPoly) : gpoly p (gtrim a) = gpoly p a := by
  induction a with
  | nil => rfl
  | cons c cs ih =>
    rw [gpoly_cons, ← ih, gtrim]
    cases gtrim cs with
    | nil => by_cases h : c = 0 <;> simp [h]
    | cons d ds => rfl

theorem gpoly_gadd (p : Nat) (a b : GPoly) : gpoly p (gadd p a b) = gpoly p a + gpoly p b := by
  induction a generalizing b with
  | nil => simp [gadd]
  | cons x xs ih =>
    cases b with
    | nil => simp [gadd]
    | cons y ys => simp only [gadd, gpoly_cons, ih, ZMod.natCast_mod]; push_cast; rw [C_add]; ring

theorem gpoly_gscale (p c : Nat) (a : GPoly) : gpoly p (gscale p c a) = C (c : ZMod p) * gpoly p a := by
  induction a with
  | nil => simp [gscale]
  | cons x xs ih =>
    have : gscale p c (x :: xs) = c * x % p :: gscale p c xs := rfl
    rw [this, gpoly_cons, gpoly_cons, ih, ZMod.natCast_mod]; push_cast; rw [C_mul]; ring

theorem gpoly_gsub {p : Nat} (hp : 1 ≤ p) (a b : GPoly) : gpoly p (gsub p a b) = gpoly p a - gpoly p b := by
  rw [gsub, gpoly_gadd, gpoly_gscale, Nat.cast_sub hp]
  simp [sub_eq_add_neg]

theorem gpoly_gshift (p k : Nat) (a : GPoly) : gpoly p (gshift k a) = X ^ k * gpoly p a := by
  induction k with
  | zero => simp [gshift]
  | succ k ih =>
    have : gshift (k + 1) a = 0 :: gshift k a := rfl
    rw [this, gpoly_cons, ih, pow_succ]; simp; ring

theorem gpoly_gmul (p : Nat) (a b : GPoly) : gpoly p (gmul p a b) = gpoly p a * gpoly p b := by
  induction a with
  | nil => simp [gmul]
  | cons x xs ih => simp only [gmul, gpoly_gadd, gpoly_gscale, gpoly_cons, ih]; simp; ring

/-! ## Reduced and trimmed lists -/

theorem gtrim_trimmed (a : GPoly) : GTrimmed (gtrim a) := by
  induction a with
  | nil => intro h; exact absurd rfl h
  | cons c cs ih =>
    rw [gtrim]
    cases h : gtrim cs with
    | nil =>
      by_cases hc : c = 0
      · simp [hc, GTrimmed]
      · simp [hc, GTrimmed, glead]
    | cons d ds =>
      rw [h] at ih
      intro _
      simpa [glead] using ih (by simp)

theorem GReduced.gtrim {p : Nat} {a : GPoly} (h : GReduced p a) : GReduced p (gtrim a) := by
  induction a with
  | nil => exact h
  | cons c cs ih =>
    have hcs : GReduced p cs := fun x hx => h x (List.mem_cons_of_mem _ hx)
    have ih := ih hcs
    rw [Machine.gtrim]
    cases ht : Machine.gtrim cs with
    | nil =>
      by_cases hc : c = 0
      · simp [hc, GReduced]
      · intro x hx
        simp only [hc, if_false, List.mem_singleton] at hx
        exact hx ▸ h c (by simp)
    | cons d ds =>
      rw [ht] at ih
      intro x hx
      rcases List.mem_cons.mp hx with rfl | hx
      · exact h _ (by simp)
      · exact ih x hx

theorem length_gtrim_le (a : GPoly) : (gtrim a).length ≤ a.length := by
  induction a with
  | nil => simp [gtrim]
  | cons c cs ih =>
    rw [gtrim]
    cases h : gtrim cs with
    | nil => by_cases hc : c = 0 <;> simp [hc]
    | cons d ds => rw [h] at ih; simpa using ih

/-- Trimming a list whose last coefficient is 0 makes it shorter. -/
theorem length_gtrim_lt {a : GPoly} (hne : a ≠ []) (h0 : glead a = 0) : (gtrim a).length < a.length := by
  induction a with
  | nil => exact absurd rfl hne
  | cons c cs ih =>
    rw [gtrim]
    cases cs with
    | nil =>
      have : c = 0 := by simpa [glead] using h0
      simp [gtrim, this]
    | cons d ds =>
      have := ih (by simp) (by simpa [glead] using h0)
      cases h : gtrim (d :: ds) with
      | nil => by_cases hc : c = 0 <;> simp [hc]
      | cons e es => rw [h] at this; simpa using this

theorem GReduced.gadd {p : Nat} (hp : 1 ≤ p) {a b : GPoly} (ha : GReduced p a) (hb : GReduced p b) :
    GReduced p (gadd p a b) := by
  induction a generalizing b with
  | nil => simpa [Machine.gadd] using hb
  | cons x xs ih =>
    cases b with
    | nil => simpa [Machine.gadd] using ha
    | cons y ys =>
      intro z hz
      rcases List.mem_cons.mp (by simpa [Machine.gadd] using hz) with rfl | hz
      · exact Nat.mod_lt _ hp
      · exact ih (fun w hw => ha w (List.mem_cons_of_mem _ hw)) (fun w hw => hb w (List.mem_cons_of_mem _ hw)) z hz

theorem gscale_reduced {p : Nat} (hp : 1 ≤ p) (c : Nat) (a : GPoly) : GReduced p (gscale p c a) := by
  intro x hx
  obtain ⟨y, -, rfl⟩ := List.mem_map.mp hx
  exact Nat.mod_lt _ hp

theorem GReduced.gshift {p : Nat} (hp : 1 ≤ p) {a : GPoly} (h : GReduced p a) (k : Nat) : GReduced p (gshift k a) := by
  intro x hx
  rcases List.mem_append.mp hx with hx | hx
  · rw [List.eq_of_mem_replicate hx]; exact hp
  · exact h x hx

theorem length_gadd (p : Nat) (a b : GPoly) : (gadd p a b).length = max a.length b.length := by
  induction a generalizing b with
  | nil => simp [gadd]
  | cons x xs ih =>
    cases b with
    | nil => simp [gadd]
    | cons y ys => simp [gadd, ih, Nat.succ_max_succ]

@[simp] theorem length_gscale (p c : Nat) (a : GPoly) : (gscale p c a).length = a.length := by simp [gscale]

@[simp] theorem length_gshift (k : Nat) (a : GPoly) : (gshift k a).length = k + a.length := by simp [gshift]

theorem glead_eq_gcoef (a : GPoly) : glead a = gcoef a (a.length - 1) := by
  cases a with
  | nil => rfl
  | cons c cs =>
    simp [glead, gcoef, List.getD, List.getLastD_eq_getLast?, List.getLast?_eq_getElem?]

theorem degree_gpoly_lt (p : Nat) (a : GPoly) : (gpoly p a).degree < a.length := by
  rw [degree_lt_iff_coeff_zero]
  intro m hm
  rw [coeff_gpoly, gcoef, List.getD_eq_default _ _ hm]
  simp

theorem cast_ne_zero {p x : Nat} (hx : x < p) (h0 : x ≠ 0) : (x : ZMod p) ≠ 0 := by
  rw [Ne, ZMod.natCast_eq_zero_iff]
  exact fun h => absurd (Nat.le_of_dvd (by omega) h) (by omega)

theorem glead_mem {a : GPoly} (h : a ≠ []) : glead a ∈ a := by
  rw [glead_eq_gcoef, gcoef, List.getD]
  have : a.length - 1 < a.length := by
    have := List.length_pos_of_ne_nil h; omega
  simp [this]

/-- The degree of a reduced, trimmed, nonempty list is its length less one, and its leading coefficient is the last entry. -/
theorem natDegree_gpoly {p : Nat} {a : GPoly} (hr : GReduced p a) (ht : GTrimmed a) (hne : a ≠ []) :
    (gpoly p a).natDegree = a.length - 1 ∧ (gpoly p a).leadingCoeff = (glead a : ZMod p) ∧ gpoly p a ≠ 0 := by
  have hlead : (glead a : ZMod p) ≠ 0 := cast_ne_zero (hr _ (glead_mem hne)) (ht hne)
  have hc : (gpoly p a).coeff (a.length - 1) = (glead a : ZMod p) := by rw [coeff_gpoly, glead_eq_gcoef]
  have h0 : gpoly p a ≠ 0 := by
    intro h; rw [h, coeff_zero] at hc; exact hlead hc.symm
  have hpos := List.length_pos_of_ne_nil hne
  have hd : (gpoly p a).natDegree = a.length - 1 := by
    have h1 : (gpoly p a).natDegree < a.length := (natDegree_lt_iff_degree_lt h0).mpr (degree_gpoly_lt p a)
    have h2 : a.length - 1 ≤ (gpoly p a).natDegree := le_natDegree_of_ne_zero (by rw [hc]; exact hlead)
    omega
  exact ⟨hd, by rw [leadingCoeff, hd, hc], h0⟩

/-! ## The Fermat inverse -/

theorem powMod_eq (b m : Nat) : ∀ fuel e, e < 2 ^ fuel → powMod b m fuel e = b ^ e % m := by
  intro fuel
  induction fuel with
  | zero => intro e he; simp [powMod, show e = 0 by omega]
  | succ fuel ih =>
    intro e he
    have hh := ih (e / 2) (by rw [pow_succ] at he; omega)
    simp only [powMod, hh]
    have hsq : b ^ (e / 2) % m * (b ^ (e / 2) % m) % m = b ^ (2 * (e / 2)) % m := by
      rw [← Nat.mul_mod, two_mul, pow_add]
    split
    · rename_i h1
      rw [hsq, ← Nat.mod_mul_mod, Nat.mod_mod, Nat.mod_mul_mod]
      conv_rhs => rw [show e = 2 * (e / 2) + 1 by omega, pow_succ]
    · rename_i h1
      rw [hsq, show 2 * (e / 2) = e by omega]

theorem finv_spec {p : Nat} [Fact p.Prime] (hp : p ≤ 2 ^ 32) {c : Nat} (hc : (c : ZMod p) ≠ 0) :
    (c : ZMod p) * (finv p c : ZMod p) = 1 := by
  have h2 := (Fact.out : p.Prime).two_le
  rw [finv, powMod_eq c p 32 (p - 2) (by omega), ZMod.natCast_mod, Nat.cast_pow, ← pow_succ',
    show p - 2 + 1 = p - 1 by omega]
  exact ZMod.pow_card_sub_one_eq_one hc

/-! ## Long division -/

theorem gdivLoop_spec {p : Nat} [Fact p.Prime] {li : Nat} {b : GPoly}
    (hbn : b ≠ []) (hli : (glead b : ZMod p) * (li : ZMod p) = 1) :
    ∀ (fuel : Nat) (q r : GPoly), GReduced p r → GTrimmed r → r.length < fuel + b.length →
      GReduced p (gdivLoop p li b fuel q r).2 ∧ GTrimmed (gdivLoop p li b fuel q r).2 ∧
      (gdivLoop p li b fuel q r).2.length < b.length ∧
      gpoly p (gdivLoop p li b fuel q r).1 * gpoly p b + gpoly p (gdivLoop p li b fuel q r).2
        = gpoly p q * gpoly p b + gpoly p r := by
  have hp1 : 1 ≤ p := (Fact.out : p.Prime).one_le
  intro fuel
  induction fuel with
  | zero => intro q r hr ht hl; exact ⟨hr, ht, by rw [gdivLoop]; simpa using hl, rfl⟩
  | succ fuel ih =>
    intro q r hr ht hl
    rw [gdivLoop]
    split
    · rename_i h; exact ⟨hr, ht, h, rfl⟩
    · rename_i hlen
      have hbpos := List.length_pos_of_ne_nil hbn
      have hrn : r ≠ [] := by rintro rfl; simp only [List.length_nil] at hlen; omega
      set k := r.length - b.length with hk
      set c := glead r * li % p with hc
      have hsubr : GReduced p (gsub p r (gshift k (gscale p c b))) :=
        hr.gadd hp1 (gscale_reduced hp1 _ _)
      have hsubl : (gsub p r (gshift k (gscale p c b))).length = r.length := by
        simp only [gsub, length_gadd, length_gscale, length_gshift]; omega
      have hsubn : gsub p r (gshift k (gscale p c b)) ≠ [] := by
        intro h; rw [h] at hsubl; simp at hsubl; omega
      have hpoly : gpoly p (gsub p r (gshift k (gscale p c b)))
          = gpoly p r - X ^ k * (C (c : ZMod p) * gpoly p b) := by
        rw [gpoly_gsub hp1, gpoly_gshift, gpoly_gscale]
      have hcast : (c : ZMod p) = (glead r : ZMod p) * (li : ZMod p) := by rw [hc, ZMod.natCast_mod]; push_cast; rfl
      have hlead0 : glead (gsub p r (gshift k (gscale p c b))) = 0 := by
        by_contra hne
        refine cast_ne_zero (hsubr _ (glead_mem hsubn)) hne ?_
        rw [glead_eq_gcoef, hsubl, ← coeff_gpoly, hpoly, coeff_sub, coeff_gpoly, ← glead_eq_gcoef,
          show r.length - 1 = (b.length - 1) + k by omega, coeff_X_pow_mul, coeff_C_mul, coeff_gpoly,
          ← glead_eq_gcoef, hcast]
        linear_combination (-(glead r : ZMod p)) * hli
      have hlt := length_gtrim_lt hsubn hlead0
      obtain ⟨h1, h2, h3, h4⟩ := ih (gadd p q (gshift k [c])) (gtrim (gsub p r (gshift k (gscale p c b))))
        hsubr.gtrim (gtrim_trimmed _) (by omega)
      refine ⟨h1, h2, h3, h4.trans ?_⟩
      rw [gpoly_gtrim, hpoly, gpoly_gadd, gpoly_gshift]
      simp
      ring

/-- `divmod` of 42_inverse.md R153: `a = q·b + r` with r shorter than b. -/
theorem gdivmod_spec {p : Nat} [Fact p.Prime] (hp : p ≤ 2 ^ 32) {a b : GPoly} (har : GReduced p a) (hat : GTrimmed a)
    (hbr : GReduced p b) (hbt : GTrimmed b) (hbn : b ≠ []) :
    GReduced p (gdivmod p a b).2 ∧ GTrimmed (gdivmod p a b).2 ∧ (gdivmod p a b).2.length < b.length ∧
      gpoly p a = gpoly p (gdivmod p a b).1 * gpoly p b + gpoly p (gdivmod p a b).2 := by
  have hlead : (glead b : ZMod p) ≠ 0 := cast_ne_zero (hbr _ (glead_mem hbn)) (hbt hbn)
  obtain ⟨h1, h2, h3, h4⟩ := gdivLoop_spec hbn (finv_spec hp hlead) (a.length + 1) [] a har hat (by omega)
  exact ⟨h1, h2, h3, by rw [gdivmod, h4]; simp⟩

/-- The degree of the quotient. -/
theorem natDegree_quotient {F : Type} [Field F] {a b q r : F[X]} (h : a = q * b + r) (hb : b ≠ 0)
    (hr : r.natDegree ≤ a.natDegree) (hba : b.natDegree ≤ a.natDegree) : q.natDegree + b.natDegree ≤ a.natDegree := by
  by_cases hq : q = 0
  · simpa [hq] using hba
  · rw [← natDegree_mul hq hb, show q * b = a - r by rw [h]; ring]
    exact (natDegree_sub_le a r).trans (max_le le_rfl hr)

/-! ## The extended Euclidean algorithm -/

/-- What holds of the four polynomials of the loop of 42_inverse.md R153 for an input A and a modulus M of degree n. -/
structure EuclidInv (p n : Nat) (A M : (ZMod p)[X]) (r0 r1 t0 t1 : GPoly) : Prop where
  red0 : GReduced p r0
  trim0 : GTrimmed r0
  ne0 : r0 ≠ []
  red1 : GReduced p r1
  trim1 : GTrimmed r1
  shorter : r1.length < r0.length
  cong0 : M ∣ gpoly p t0 * A - gpoly p r0
  cong1 : M ∣ gpoly p t1 * A - gpoly p r1
  deg0 : (gpoly p t0).natDegree < n
  deg1 : (gpoly p t1).natDegree + (gpoly p r0).natDegree ≤ n
  deg2 : (gpoly p t0).natDegree + (gpoly p r1).natDegree ≤ n
  cop : IsCoprime A M ↔ IsCoprime (gpoly p r0) (gpoly p r1)

theorem natDegree_gpoly_le (p : Nat) (a : GPoly) : (gpoly p a).natDegree ≤ a.length - 1 := by
  by_cases h : gpoly p a = 0
  · simp [h]
  · have := (natDegree_lt_iff_degree_lt h).mpr (degree_gpoly_lt p a); omega

/-- One pass of the loop. -/
theorem EuclidInv.pass {p n : Nat} [Fact p.Prime] (hp : p ≤ 2 ^ 32) {A M : (ZMod p)[X]} {r0 r1 t0 t1 : GPoly}
    (h : EuclidInv p n A M r0 r1 t0 t1) (hne : r1 ≠ []) :
    EuclidInv p n A M r1 (gdivmod p r0 r1).2 t1 (gsub p t0 (gmul p (gdivmod p r0 r1).1 t1)) := by
  have hp1 : 1 ≤ p := (Fact.out : p.Prime).one_le
  obtain ⟨h1, h2, h3, h4⟩ := gdivmod_spec hp h.red0 h.trim0 h.red1 h.trim1 hne
  obtain ⟨hd0, -, hz0⟩ := natDegree_gpoly h.red0 h.trim0 h.ne0
  obtain ⟨hd1, -, hz1⟩ := natDegree_gpoly h.red1 h.trim1 hne
  have hpos := List.length_pos_of_ne_nil hne
  have hs := h.shorter
  have hrm := natDegree_gpoly_le p (gdivmod p r0 r1).2
  have ht : gpoly p (gsub p t0 (gmul p (gdivmod p r0 r1).1 t1))
      = gpoly p t0 - gpoly p (gdivmod p r0 r1).1 * gpoly p t1 := by rw [gpoly_gsub hp1, gpoly_gmul]
  have hq := natDegree_quotient h4 hz1 (by omega) (by omega)
  have hdeg1 := h.deg1
  have hdeg0 := h.deg0
  refine ⟨h.red1, h.trim1, hne, h1, h2, h3, h.cong1, ?_, by omega, ?_, by omega, ?_⟩
  · rw [ht]
    have e : (gpoly p t0 - gpoly p (gdivmod p r0 r1).1 * gpoly p t1) * A - gpoly p (gdivmod p r0 r1).2
        = (gpoly p t0 * A - gpoly p r0) - gpoly p (gdivmod p r0 r1).1 * (gpoly p t1 * A - gpoly p r1) := by
      linear_combination h4
    rw [e]
    exact dvd_sub h.cong0 (Dvd.dvd.mul_left h.cong1 _)
  · rw [ht]
    have hb1 : (gpoly p (gdivmod p r0 r1).1 * gpoly p t1).natDegree + (gpoly p r1).natDegree ≤ n := by
      have := natDegree_mul_le (p := gpoly p (gdivmod p r0 r1).1) (q := gpoly p t1)
      omega
    have hb0 : (gpoly p t0).natDegree + (gpoly p r1).natDegree ≤ n := by
      have := h.deg2
      omega
    have := natDegree_sub_le (gpoly p t0) (gpoly p (gdivmod p r0 r1).1 * gpoly p t1)
    omega
  · rw [h.cop]
    have e : gpoly p (gdivmod p r0 r1).2 = gpoly p r0 + gpoly p r1 * (-gpoly p (gdivmod p r0 r1).1) := by
      linear_combination -h4
    rw [e, isCoprime_comm, IsCoprime.add_mul_left_right_iff]

/-- The loop ends with the gcd and its cofactor; it needs no more passes than the length of r1 (42_inverse.md R156). -/
theorem euclidLoop_spec {p n : Nat} [Fact p.Prime] (hp : p ≤ 2 ^ 32) {A M : (ZMod p)[X]} :
    ∀ (fuel : Nat) (r0 r1 t0 t1 : GPoly), EuclidInv p n A M r0 r1 t0 t1 → r1.length ≤ fuel →
      ∃ s1, EuclidInv p n A M (euclidLoop p fuel r0 r1 t0 t1).1 [] (euclidLoop p fuel r0 r1 t0 t1).2 s1 := by
  intro fuel
  induction fuel with
  | zero =>
    intro r0 r1 t0 t1 h hl
    obtain rfl : r1 = [] := List.length_eq_zero_iff.mp (by omega)
    exact ⟨t1, h⟩
  | succ fuel ih =>
    intro r0 r1 t0 t1 h hl
    cases r1 with
    | nil => exact ⟨t1, h⟩
    | cons c cs =>
      have hpass := h.pass hp (by simp)
      exact ih _ _ _ _ hpass (by have := hpass.shorter; omega)

/-! ## Inversion modulo a prime -/

theorem gpoly_cyclicModulus {n p : Nat} (hn : 1 ≤ n) (hp : 1 ≤ p) :
    gpoly p (cyclicModulus n p) = cycPoly n (ZMod p) := by
  have h : cyclicModulus n p = (p - 1) :: gshift (n - 1) [1] := rfl
  obtain ⟨k, rfl⟩ : ∃ k, n = k + 1 := ⟨n - 1, by omega⟩
  rw [h, gpoly_cons, gpoly_gshift, Nat.cast_sub hp]
  simp [cycPoly, pow_succ]
  ring

theorem gpoly_residuePoly {n p : Nat} (hp : 1 ≤ p) (a : Poly) : gpoly p (residuePoly n p a) = polyIn n (ZMod p) a := by
  ext i
  rw [residuePoly, gpoly_gtrim, coeff_gpoly, polyIn, coeff_polyFn]
  by_cases h : i < n
  · have e : ((coef a i % (p : Int)).toNat : Int) = coef a i % p := Int.toNat_of_nonneg (Int.emod_nonneg _ (by omega))
    have e2 : (((coef a i % (p : Int)).toNat : Int) : ZMod p) = ((coef a i : Int) : ZMod p) := by
      rw [e, eq_comm, ZMod.intCast_eq_intCast_iff_dvd_sub]
      refine ⟨-(coef a i / p), ?_⟩
      have := Int.emod_add_mul_ediv (coef a i) p
      linear_combination this
    simp only [h, if_true, gcoef, List.getD, List.getElem?_map, List.getElem?_range h, Option.map_some, Option.getD_some]
    rw [← e2]
    push_cast
    rfl
  · simp [h, gcoef, List.getD]

/-- The state of the loop at its start. -/
theorem euclidInv_start {n p : Nat} [Fact p.Prime] (hn : 1 ≤ n) (a : Poly) :
    EuclidInv p n (polyIn n (ZMod p) a) (cycPoly n (ZMod p)) (cyclicModulus n p) (residuePoly n p a) [] [1] := by
  have hp2 := (Fact.out : p.Prime).two_le
  have hM := gpoly_cyclicModulus (p := p) hn (by omega)
  have hA := gpoly_residuePoly (n := n) (p := p) (by omega) a
  have hlen : (cyclicModulus n p).length = n + 1 := by simp [cyclicModulus]; omega
  have hred : GReduced p (cyclicModulus n p) := by
    intro x hx
    simp only [cyclicModulus, List.mem_cons, List.mem_append, List.mem_replicate, List.not_mem_nil, or_false] at hx
    omega
  have htrim : GTrimmed (cyclicModulus n p) := by
    intro _
    have e : cyclicModulus n p = ((p - 1) :: List.replicate (n - 1) 0) ++ [1] := rfl
    rw [e, glead, List.getLastD_eq_getLast?, List.getLast?_append]
    simp
  have hne : cyclicModulus n p ≠ [] := by simp [cyclicModulus]
  refine ⟨hred, htrim, hne, ?_, gtrim_trimmed _, ?_, ?_, ?_, ?_, ?_, ?_, ?_⟩
  · refine GReduced.gtrim ?_
    intro x hx
    obtain ⟨i, -, rfl⟩ := List.mem_map.mp hx
    have h1 := Int.emod_nonneg (coef a i) (b := (p : Int)) (by omega)
    have h2 := Int.emod_lt_of_pos (coef a i) (b := (p : Int)) (by omega)
    omega
  · have := length_gtrim_le ((List.range n).map fun i => (coef a i % (p : Int)).toNat)
    simp only [List.length_map, List.length_range] at this
    rw [hlen, residuePoly]; omega
  · rw [hM]; exact ⟨-1, by simp⟩
  · rw [hA]; simp
  · simp; omega
  · rw [(natDegree_gpoly hred htrim hne).1, hlen]; simp
  · have := natDegree_gpoly_le p (residuePoly n p a)
    have h2 := length_gtrim_le ((List.range n).map fun i => (coef a i % (p : Int)).toNat)
    simp only [List.length_map, List.length_range] at h2
    rw [residuePoly] at this ⊢
    simp; omega
  · rw [hM, hA, isCoprime_comm]

/-- What `invPrime` answers (42_inverse.md R151 to R153): an inverse modulo p with coefficients in [0, p), or none when there is
no inverse. -/
theorem invPrime_spec {n p : Nat} [Fact p.Prime] (hn : 1 ≤ n) (hp : p ≤ 2 ^ 32) (a : Poly) :
    (∀ b, invPrime n p a = some b → IsInverse n p a b ∧ b.length = n ∧ ∀ i < n, Canonical (coef b i) p .nonneg) ∧
    (invPrime n p a = none → ¬Invertible n p a) := by
  have hp2 := (Fact.out : p.Prime).two_le
  have hlen : (residuePoly n p a).length ≤ n + 1 := by
    have := length_gtrim_le ((List.range n).map fun i => (coef a i % (p : Int)).toNat)
    simp only [List.length_map, List.length_range] at this
    rw [residuePoly]; omega
  obtain ⟨s1, h⟩ := euclidLoop_spec hp (n + 1) _ _ _ _ (euclidInv_start hn a) hlen
  rw [invertible_iff_isCoprime hn hp2, h.cop, invPrime]
  set r := (euclidLoop p (n + 1) (cyclicModulus n p) (residuePoly n p a) [] [1]).1 with hr
  set t := (euclidLoop p (n + 1) (cyclicModulus n p) (residuePoly n p a) [] [1]).2 with ht
  have hne := h.ne0
  have hred := h.red0
  have htrim := h.trim0
  have hcong := h.cong0
  cases hrl : r with
  | nil => exact absurd hrl hne
  | cons c cs =>
    rw [hrl] at hred htrim hcong
    cases cs with
    | nil =>
      refine ⟨?_, by simp⟩
      rintro b hb
      simp only [Option.some.injEq] at hb
      subst hb
      have hc : (c : ZMod p) ≠ 0 := cast_ne_zero (hred c (by simp)) (by simpa [glead] using htrim (by simp))
      refine ⟨?_, by simp, fun i hi => ?_⟩
      · rw [isInverse_iff hn hp2]
        have hpoly : polyIn n (ZMod p) (polyOf n fun i => ((gcoef t i * finv p c % p : Nat) : Int))
            = C (finv p c : ZMod p) * gpoly p t := by
          rw [polyIn_polyOf]
          ext i
          rw [coeff_polyFn, coeff_C_mul, coeff_gpoly]
          split
          · rw [Int.cast_natCast, ZMod.natCast_mod]; push_cast; ring
          · rename_i hi
            rw [← coeff_gpoly, coeff_eq_zero_of_natDegree_lt (by have := h.deg0; omega), mul_zero]
        rw [cls, cls, hpoly, ← map_mul, ← map_one (AdjoinRoot.mk (cycPoly n (ZMod p))), AdjoinRoot.mk_eq_mk]
        obtain ⟨k, hk⟩ := hcong
        refine ⟨C (finv p c : ZMod p) * k, ?_⟩
        have hcc : C (c : ZMod p) * C (finv p c : ZMod p) = 1 := by rw [← C_mul, finv_spec hp hc, C_1]
        simp only [gpoly_cons, gpoly_nil, mul_zero, add_zero] at hk
        linear_combination C (finv p c : ZMod p) * hk + hcc
      · rw [coef_polyOf_lt _ hi]
        have := Nat.mod_lt (gcoef t i * finv p c) (show 0 < p by omega)
        exact ⟨by omega, by exact_mod_cast this⟩
    | cons d ds =>
      refine ⟨by simp, fun _ => ?_⟩
      rw [gpoly_nil, isCoprime_zero_right]
      intro hu
      have := natDegree_eq_zero_of_isUnit hu
      rw [(natDegree_gpoly hred htrim (by simp)).1] at this
      simp at this

end Sys2Proof.Machine
end

