-- ==== Sys2Proof/Laws/Lift.lean ====
section
/-! SUPPORT. Hensel lifting (42_inverse.md R155, R157): one step takes an inverse modulo k to one modulo any divisor of k², and
every schedule ends with the one inverse modulo Q. -/

namespace Sys2Proof.Machine

open Polynomial

theorem map_polyFn {n : Nat} {R S : Type} [CommRing R] [CommRing S] (φ : R →+* S) (f : Nat → R) :
    (polyFn n R f).map φ = polyFn n S fun i => φ (f i) := by
  simp [polyFn, Polynomial.map_sum]

theorem map_cycPoly {n : Nat} {R S : Type} [CommRing R] [CommRing S] (φ : R →+* S) :
    (cycPoly n R).map φ = cycPoly n S := by
  simp [cycPoly]

/-- An inverse modulo m, over the integers: `1 - a·b` is a multiple of m in Z[x]/(x^N - 1). -/
theorem isInverse_iff_int {n m : Nat} (hn : 1 ≤ n) (hm : 2 ≤ m) (a b : Poly) :
    IsInverse n m a b ↔ ∃ x : AdjoinRoot (cycPoly n ℤ), 1 - cls n ℤ a * cls n ℤ b = (m : AdjoinRoot (cycPoly n ℤ)) * x := by
  have hc : ∀ x : AdjoinRoot (cycPoly n ℤ), (m : AdjoinRoot (cycPoly n ℤ)) * x = AdjoinRoot.mk _ (C (m : ℤ)) * x := by
    intro x; simp
  rw [IsInverse, ← reducePoly_onePoly (n := n) .nonneg hm, reducePoly_eq_iff (by omega)]
  rw [← cls_conv, ← cls_onePoly ℤ hn]
  constructor
  · intro h
    refine ⟨AdjoinRoot.mk _ (polyFn n ℤ fun i => (coef (onePoly n) i - coef (conv n a b) i) / m), ?_⟩
    rw [hc, cls, cls, ← map_sub, ← map_mul]
    congr 1
    ext i
    rw [coeff_sub, coeff_C_mul, polyIn, polyIn, coeff_polyFn, coeff_polyFn, coeff_polyFn]
    split
    · rename_i hi
      have hd : (m : Int) ∣ coef (onePoly n) i - coef (conv n a b) i := by
        have := (h i hi).neg_right
        rwa [neg_sub] at this
      simpa using (Int.mul_ediv_cancel' hd).symm
    · simp
  · rintro ⟨x, hx⟩
    obtain ⟨g, rfl⟩ := AdjoinRoot.mk_surjective x
    rw [hc, cls, cls, ← map_sub, ← map_mul, AdjoinRoot.mk_eq_mk] at hx
    have h2 := Polynomial.map_dvd (Int.castRingHom (ZMod m)) hx
    have e0 : (C (m : ℤ) * g).map (Int.castRingHom (ZMod m)) = 0 := by
      rw [Polynomial.map_mul, Polynomial.map_C]
      simp
    rw [map_cycPoly, Polynomial.map_sub, Polynomial.map_sub, e0, sub_zero, polyIn, polyIn, map_polyFn, map_polyFn] at h2
    intro i hi
    have h3 := (cycPoly_dvd_polyFn_sub_iff hn _ _).mp h2 i hi
    have h4 : ((coef (onePoly n) i : ℤ) : ZMod m) = ((coef (conv n a b) i : ℤ) : ZMod m) := by simpa using h3
    exact (ZMod.intCast_eq_intCast_iff_dvd_sub _ _ m).mp h4

/-- An inverse modulo m is one modulo every divisor of m. -/
theorem isInverse_of_dvd {n m k : Nat} (hn : 1 ≤ n) (hm : 2 ≤ m) (hk : 2 ≤ k) (hd : k ∣ m) {a b : Poly}
    (h : IsInverse n m a b) : IsInverse n k a b := by
  obtain ⟨c, rfl⟩ := hd
  obtain ⟨x, hx⟩ := (isInverse_iff_int hn hm a b).mp h
  exact (isInverse_iff_int hn hk a b).mpr ⟨c * x, by rw [hx]; push_cast; ring⟩

/-- One lifting step, `b·(2 − a·b) mod k'` (42_inverse.md R155): `1 - a·b' = (1 - a·b)²`. -/
theorem liftStep_isInverse {n k k' : Nat} (hn : 1 ≤ n) (hk : 2 ≤ k) (hk' : 2 ≤ k') (hd : k' ∣ k * k) {a b : Poly}
    (h : IsInverse n k a b) : IsInverse n k' a (liftStep n a b k') := by
  rw [liftStep, isInverse_reducePoly hn hk']
  obtain ⟨x, hx⟩ := (isInverse_iff_int hn hk a b).mp h
  obtain ⟨c, hc⟩ := hd
  have hin : cls n ℤ (polyOf n fun i => coef (polyOf n fun j => 2 * coef (onePoly n) j) i - coef (conv n a b) i)
      = 2 - cls n ℤ a * cls n ℤ b := by
    rw [← cls_conv, cls, cls, polyIn_polyOf]
    have : (2 : AdjoinRoot (cycPoly n ℤ)) = AdjoinRoot.mk _ (polyFn n ℤ fun i => 2 * coef (onePoly n) i) := by
      have e : polyFn n ℤ (fun i => 2 * coef (onePoly n) i) = C 2 * polyIn n ℤ (onePoly n) := by
        ext i
        rw [coeff_C_mul, polyIn, coeff_polyFn, coeff_polyFn]
        split <;> simp
      rw [e, polyIn_onePoly ℤ hn, mul_one, map_ofNat C 2]
      exact (map_ofNat (AdjoinRoot.mk (cycPoly n ℤ)) 2).symm
    rw [this, ← map_sub]
    congr 1
    ext i
    rw [coeff_sub, polyIn, coeff_polyFn, coeff_polyFn, coeff_polyFn]
    split
    · rename_i hi
      rw [coef_polyOf_lt _ hi]
      push_cast
      ring
    · ring
  refine (isInverse_iff_int hn hk' a _).mpr ⟨c * x ^ 2, ?_⟩
  rw [cls_conv, hin]
  have hc' : (k : AdjoinRoot (cycPoly n ℤ)) * k = k' * c := by exact_mod_cast congrArg (Nat.cast (R := AdjoinRoot (cycPoly n ℤ))) hc
  calc 1 - cls n ℤ a * (cls n ℤ b * (2 - cls n ℤ a * cls n ℤ b))
      = (1 - cls n ℤ a * cls n ℤ b) ^ 2 := by ring
    _ = (k * k) * x ^ 2 := by rw [hx]; ring
    _ = k' * (c * x ^ 2) := by rw [hc']; ring

/-- A result of lifting to the modulus q: an inverse there, in the non-negative range. -/
def Lifted (n q : Nat) (a b : Poly) : Prop := IsInverse n q a b ∧ ∃ c, b = reducePoly n c q .nonneg

/-- There is at most one result. -/
theorem lifted_unique {n q : Nat} (hn : 1 ≤ n) (hq : 2 ≤ q) {a b b' : Poly} (h : Lifted n q a b)
    (h' : Lifted n q a b') : b = b' := by
  obtain ⟨h1, c, rfl⟩ := h
  obtain ⟨h2, c', rfl⟩ := h'
  exact isInverse_unique hn hq ((isInverse_reducePoly hn hq a c .nonneg).mp h1)
    ((isInverse_reducePoly hn hq a c' .nonneg).mp h2) .nonneg

theorem two_le_two_pow {e : Nat} (he : 1 ≤ e) : 2 ≤ 2 ^ e := by
  calc 2 = 2 ^ 1 := rfl
    _ ≤ 2 ^ e := Nat.pow_le_pow_right (by omega) he

/-- One step of a schedule of exponents (42_inverse.md R157). -/
theorem liftStep_pow {n e e' : Nat} (hn : 1 ≤ n) (he : 1 ≤ e) (h1 : e ≤ e') (h2 : e' ≤ 2 * e) {a b : Poly}
    (h : IsInverse n (2 ^ e) a b) : Lifted n (2 ^ e') a (liftStep n a b (2 ^ e')) := by
  refine ⟨liftStep_isInverse hn (two_le_two_pow he) (two_le_two_pow (by omega)) ?_ h, _, rfl⟩
  rw [← pow_add, ← two_mul]
  exact pow_dvd_pow 2 h2

/-- The reference schedule (42_inverse.md R155): with enough passes it ends with an inverse modulo 2^qe. -/
theorem liftLoop_lifted {n qe : Nat} (hn : 1 ≤ n) (a : Poly) :
    ∀ (fuel e : Nat) (b : Poly), 1 ≤ e → e < qe → qe ≤ e * 2 ^ fuel → IsInverse n (2 ^ e) a b →
      Lifted n (2 ^ qe) a (liftLoop n (2 ^ qe) a fuel (2 ^ e) b) := by
  intro fuel
  induction fuel with
  | zero => intro e b _ h2 h3; omega
  | succ fuel ih =>
    intro e b he hlt hf h
    have hmin : min (2 ^ e * 2 ^ e) (2 ^ qe) = 2 ^ min (2 * e) qe := by
      rw [← pow_add, ← two_mul]
      rcases Nat.le_total (2 * e) qe with hc | hc
      · rw [Nat.min_eq_left hc, Nat.min_eq_left (Nat.pow_le_pow_right (by omega) hc)]
      · rw [Nat.min_eq_right hc, Nat.min_eq_right (Nat.pow_le_pow_right (by omega) hc)]
    have hlt' : 2 ^ e < 2 ^ qe := Nat.pow_lt_pow_right (by omega) hlt
    rw [liftLoop, if_pos hlt', hmin]
    have hs : Lifted n (2 ^ min (2 * e) qe) a (liftStep n a b (2 ^ min (2 * e) qe)) :=
      liftStep_pow hn he (by omega) (by omega) h
    rcases Nat.lt_or_ge (2 * e) qe with hc | hc
    · rw [Nat.min_eq_left hc.le] at hs ⊢
      exact ih (2 * e) _ (by omega) hc (by rw [pow_succ] at hf; nlinarith) hs.1
    · rw [Nat.min_eq_right hc] at hs ⊢
      have hstop : ∀ (f : Nat) (x : Poly), liftLoop n (2 ^ qe) a f (2 ^ qe) x = x := by
        intro f x; cases f <;> simp [liftLoop]
      rw [hstop]
      exact hs

/-- Any good schedule (42_inverse.md R157). -/
theorem liftSchedule_lifted {n qe : Nat} (hn : 1 ≤ n) (a : Poly) :
    ∀ (es : List Nat) (e : Nat) (b : Poly), 1 ≤ e → e < qe → GoodSchedule qe e es → IsInverse n (2 ^ e) a b →
      Lifted n (2 ^ qe) a (liftSchedule n a es b) := by
  intro es
  induction es with
  | nil => intro e b _ h2 h3; simp only [GoodSchedule] at h3; omega
  | cons e' es ih =>
    rintro e b he hlt ⟨h1, h2, h3⟩ h
    have hs := liftStep_pow hn he h1 h2 h
    rcases Nat.lt_or_ge e' qe with hc | hc
    · exact ih e' _ (by omega) hc h3 hs.1
    · -- the modulus is Q already: later steps keep it there
      have hge : ∀ (es : List Nat) (e : Nat), GoodSchedule qe e es → e ≤ qe := by
        intro es
        induction es with
        | nil => intro e h; simp only [GoodSchedule] at h; omega
        | cons x xs ih2 => rintro e ⟨g1, _, g3⟩; exact g1.trans (ih2 x g3)
      obtain rfl : e' = qe := le_antisymm (hge _ _ h3) hc
      have hstay : ∀ (es : List Nat) (b : Poly), GoodSchedule e' e' es → Lifted n (2 ^ e') a b →
          Lifted n (2 ^ e') a (liftSchedule n a es b) := by
        intro es
        induction es with
        | nil => intro b _ hb; exact hb
        | cons x xs ih2 =>
          rintro b ⟨g1, g2, g3⟩ hb
          obtain rfl : x = e' := le_antisymm (hge _ _ g3) g1
          exact ih2 _ g3 (liftStep_pow hn (by omega) g1 g2 hb.1)
      exact hstay es _ h3 hs

end Sys2Proof.Machine
end

