-- ==== Sys2Proof/Laws/State.lean ====
section
/-! SUPPORT. The small lemmas of State: what each named update leaves in each field. -/

namespace Sys2Proof.Machine

/-! ## Registers and tags -/

@[simp] theorem reg_setReg_self (s : State) (r : Reg) (v : Poly) : (s.setReg r v).reg r = v := by
  simp [State.reg, State.setReg]

theorem reg_setReg (s : State) (r r' : Reg) (v : Poly) :
    (s.setReg r v).reg r' = if r' = r then v else s.reg r' := by
  by_cases h : r' = r
  · subst h; simp
  · have : r.val ≠ r'.val := fun e => h (Fin.ext e.symm)
    simp [State.reg, State.setReg, h, this]

@[simp] theorem tag_setTag_self (s : State) (r : Reg) (t : Tag) : (s.setTag r t).tag r = t := by
  simp [State.tag, State.setTag]

theorem tag_setTag (s : State) (r r' : Reg) (t : Tag) :
    (s.setTag r t).tag r' = if r' = r then t else s.tag r' := by
  by_cases h : r' = r
  · subst h; simp
  · have : r.val ≠ r'.val := fun e => h (Fin.ext e.symm)
    simp [State.tag, State.setTag, h, this]

@[simp] theorem tag_setReg (s : State) (r r' : Reg) (v : Poly) : (s.setReg r v).tag r' = s.tag r' := rfl
@[simp] theorem reg_setTag (s : State) (r r' : Reg) (t : Tag) : (s.setTag r t).reg r' = s.reg r' := rfl
@[simp] theorem params_setReg (s : State) (r : Reg) (v : Poly) : (s.setReg r v).params = s.params := rfl
@[simp] theorem ie_setReg (s : State) (r : Reg) (v : Poly) : (s.setReg r v).ie = s.ie := rfl
@[simp] theorem busy_setReg (s : State) (r : Reg) (v : Poly) : (s.setReg r v).busy = s.busy := rfl
@[simp] theorem done_setReg (s : State) (r : Reg) (v : Poly) : (s.setReg r v).done = s.done := rfl
@[simp] theorem err_setReg (s : State) (r : Reg) (v : Poly) : (s.setReg r v).err = s.err := rfl
@[simp] theorem cmd_setReg (s : State) (r : Reg) (v : Poly) : (s.setReg r v).cmd = s.cmd := rfl
@[simp] theorem stream_setReg (s : State) (r : Reg) (v : Poly) : (s.setReg r v).stream = s.stream := rfl
@[simp] theorem resp_setReg (s : State) (r : Reg) (v : Poly) : (s.setReg r v).resp = s.resp := rfl
@[simp] theorem params_setTag (s : State) (r : Reg) (t : Tag) : (s.setTag r t).params = s.params := rfl
@[simp] theorem ie_setTag (s : State) (r : Reg) (t : Tag) : (s.setTag r t).ie = s.ie := rfl
@[simp] theorem busy_setTag (s : State) (r : Reg) (t : Tag) : (s.setTag r t).busy = s.busy := rfl
@[simp] theorem done_setTag (s : State) (r : Reg) (t : Tag) : (s.setTag r t).done = s.done := rfl
@[simp] theorem err_setTag (s : State) (r : Reg) (t : Tag) : (s.setTag r t).err = s.err := rfl
@[simp] theorem cmd_setTag (s : State) (r : Reg) (t : Tag) : (s.setTag r t).cmd = s.cmd := rfl
@[simp] theorem stream_setTag (s : State) (r : Reg) (t : Tag) : (s.setTag r t).stream = s.stream := rfl
@[simp] theorem resp_setTag (s : State) (r : Reg) (t : Tag) : (s.setTag r t).resp = s.resp := rfl

/-- Two states with equal registers and tags have equal register files. -/
theorem regs_ext {s t : State} (h : SameRegs s t) : t.pr = s.pr ∧ t.tags = s.tags := by
  constructor
  · ext1 i hi
    exact (h ⟨i, hi⟩).1
  · ext1 i hi
    exact (h ⟨i, hi⟩).2

/-! ## Acceptance (40_command.md R111) -/

@[simp] theorem params_accept (v : Word) (s : State) : (acceptCommand v s).params = s.params := rfl
@[simp] theorem reg_accept (v : Word) (s : State) (r : Reg) : (acceptCommand v s).reg r = s.reg r := rfl
@[simp] theorem tag_accept (v : Word) (s : State) (r : Reg) : (acceptCommand v s).tag r = s.tag r := rfl
@[simp] theorem ie_accept (v : Word) (s : State) : (acceptCommand v s).ie = s.ie := rfl
@[simp] theorem busy_accept (v : Word) (s : State) : (acceptCommand v s).busy = true := rfl
@[simp] theorem done_accept (v : Word) (s : State) : (acceptCommand v s).done = false := rfl
@[simp] theorem err_accept (v : Word) (s : State) : (acceptCommand v s).err = s.err := rfl
@[simp] theorem cmd_accept (v : Word) (s : State) : (acceptCommand v s).cmd = v := rfl
@[simp] theorem stream_accept (v : Word) (s : State) : (acceptCommand v s).stream = s.stream := rfl
@[simp] theorem resp_accept (v : Word) (s : State) : (acceptCommand v s).resp = s.resp := rfl

/-! ## Completion (40_command.md R113) -/

@[simp] theorem params_complete (c : Completion) (s : State) : (complete c s).params = s.params := by
  cases c <;> rfl
@[simp] theorem ie_complete (c : Completion) (s : State) : (complete c s).ie = s.ie := by cases c <;> rfl
@[simp] theorem busy_complete (c : Completion) (s : State) : (complete c s).busy = false := rfl
@[simp] theorem done_complete (c : Completion) (s : State) : (complete c s).done = true := rfl
@[simp] theorem err_complete (c : Completion) (s : State) : (complete c s).err = c.code := rfl
@[simp] theorem cmd_complete (c : Completion) (s : State) : (complete c s).cmd = s.cmd := by cases c <;> rfl
@[simp] theorem stream_complete (c : Completion) (s : State) : (complete c s).stream = s.stream := by
  cases c <;> rfl
@[simp] theorem resp_complete (c : Completion) (s : State) : (complete c s).resp = s.resp := by cases c <;> rfl

@[simp] theorem reg_complete_okNothing (s : State) (r : Reg) : (complete .okNothing s).reg r = s.reg r := rfl
@[simp] theorem tag_complete_okNothing (s : State) (r : Reg) : (complete .okNothing s).tag r = s.tag r := rfl
@[simp] theorem reg_complete_illegal (s : State) (r : Reg) : (complete .illegal s).reg r = s.reg r := rfl
@[simp] theorem tag_complete_illegal (s : State) (r : Reg) : (complete .illegal s).tag r = s.tag r := rfl
@[simp] theorem reg_complete_noinv (s : State) (r : Reg) : (complete .noinv s).reg r = s.reg r := rfl
@[simp] theorem tag_complete_noinv (s : State) (r : Reg) : (complete .noinv s).tag r = s.tag r := rfl

theorem reg_complete_okWrite (rd : Reg) (m : MSel) (v : Poly) (s : State) (r : Reg) :
    (complete (.okWrite rd m v) s).reg r = if r = rd then v else s.reg r :=
  reg_setReg s rd r v

theorem tag_complete_okWrite (rd : Reg) (m : MSel) (v : Poly) (s : State) (r : Reg) :
    (complete (.okWrite rd m v) s).tag r = if r = rd then tagOf m else s.tag r :=
  tag_setTag (s.setReg rd v) rd r (tagOf m)

/-! ## Host writes -/

@[simp] theorem params_writeCtrl (v : Word) (s : State) : (writeCtrl v s).params = s.params := rfl
@[simp] theorem reg_writeCtrl (v : Word) (s : State) (r : Reg) : (writeCtrl v s).reg r = s.reg r := rfl
@[simp] theorem tag_writeCtrl (v : Word) (s : State) (r : Reg) : (writeCtrl v s).tag r = s.tag r := rfl
@[simp] theorem ie_writeCtrl (v : Word) (s : State) : (writeCtrl v s).ie = v.getLsbD 0 := rfl
@[simp] theorem busy_writeCtrl (v : Word) (s : State) : (writeCtrl v s).busy = s.busy := rfl
@[simp] theorem done_writeCtrl (v : Word) (s : State) : (writeCtrl v s).done = s.done := rfl
@[simp] theorem err_writeCtrl (v : Word) (s : State) : (writeCtrl v s).err = s.err := rfl
@[simp] theorem cmd_writeCtrl (v : Word) (s : State) : (writeCtrl v s).cmd = s.cmd := rfl
@[simp] theorem stream_writeCtrl (v : Word) (s : State) : (writeCtrl v s).stream = s.stream := rfl
@[simp] theorem resp_writeCtrl (v : Word) (s : State) : (writeCtrl v s).resp = s.resp := rfl

@[simp] theorem params_writeStatus (v : Word) (s : State) : (writeStatus v s).params = s.params := rfl
@[simp] theorem reg_writeStatus (v : Word) (s : State) (r : Reg) : (writeStatus v s).reg r = s.reg r := rfl
@[simp] theorem tag_writeStatus (v : Word) (s : State) (r : Reg) : (writeStatus v s).tag r = s.tag r := rfl
@[simp] theorem ie_writeStatus (v : Word) (s : State) : (writeStatus v s).ie = s.ie := rfl
@[simp] theorem busy_writeStatus (v : Word) (s : State) : (writeStatus v s).busy = s.busy := rfl
@[simp] theorem done_writeStatus (v : Word) (s : State) : (writeStatus v s).done = (s.done && !v.getLsbD 1) := rfl
@[simp] theorem err_writeStatus (v : Word) (s : State) : (writeStatus v s).err = s.err := rfl
@[simp] theorem cmd_writeStatus (v : Word) (s : State) : (writeStatus v s).cmd = s.cmd := rfl
@[simp] theorem stream_writeStatus (v : Word) (s : State) : (writeStatus v s).stream = s.stream := rfl
@[simp] theorem resp_writeStatus (v : Word) (s : State) : (writeStatus v s).resp = s.resp := rfl

@[simp] theorem params_writeCoef (r : Reg) (i : Nat) (v : Word) (s : State) : (writeCoef r i v s).params = s.params := rfl
@[simp] theorem ie_writeCoef (r : Reg) (i : Nat) (v : Word) (s : State) : (writeCoef r i v s).ie = s.ie := rfl
@[simp] theorem busy_writeCoef (r : Reg) (i : Nat) (v : Word) (s : State) : (writeCoef r i v s).busy = s.busy := rfl
@[simp] theorem done_writeCoef (r : Reg) (i : Nat) (v : Word) (s : State) : (writeCoef r i v s).done = s.done := rfl
@[simp] theorem err_writeCoef (r : Reg) (i : Nat) (v : Word) (s : State) : (writeCoef r i v s).err = s.err := rfl
@[simp] theorem cmd_writeCoef (r : Reg) (i : Nat) (v : Word) (s : State) : (writeCoef r i v s).cmd = s.cmd := rfl
@[simp] theorem stream_writeCoef (r : Reg) (i : Nat) (v : Word) (s : State) : (writeCoef r i v s).stream = s.stream := rfl
@[simp] theorem resp_writeCoef (r : Reg) (i : Nat) (v : Word) (s : State) : (writeCoef r i v s).resp = s.resp := rfl

theorem reg_writeCoef (r r' : Reg) (i : Nat) (v : Word) (s : State) :
    (writeCoef r i v s).reg r' = if r' = r then (s.reg r).set i (coefOfWord s.params v) else s.reg r' :=
  reg_setReg s r r' _

theorem tag_writeCoef (r r' : Reg) (i : Nat) (v : Word) (s : State) :
    (writeCoef r i v s).tag r' = if r' = r then .raw else s.tag r' :=
  tag_setTag _ r r' .raw

/-! ## Events -/

@[simp] theorem params_noResponse (s : State) : (noResponse s).params = s.params := rfl
@[simp] theorem reg_noResponse (s : State) (r : Reg) : (noResponse s).reg r = s.reg r := rfl
@[simp] theorem tag_noResponse (s : State) (r : Reg) : (noResponse s).tag r = s.tag r := rfl
@[simp] theorem ie_noResponse (s : State) : (noResponse s).ie = s.ie := rfl
@[simp] theorem busy_noResponse (s : State) : (noResponse s).busy = s.busy := rfl
@[simp] theorem done_noResponse (s : State) : (noResponse s).done = s.done := rfl
@[simp] theorem err_noResponse (s : State) : (noResponse s).err = s.err := rfl
@[simp] theorem cmd_noResponse (s : State) : (noResponse s).cmd = s.cmd := rfl
@[simp] theorem stream_noResponse (s : State) : (noResponse s).stream = s.stream := rfl
@[simp] theorem resp_noResponse (s : State) : (noResponse s).resp = none := rfl

@[simp] theorem params_turn (s : State) : s.turn.params = s.params := rfl
@[simp] theorem reg_turn (s : State) (r : Reg) : s.turn.reg r = s.reg r := rfl
@[simp] theorem tag_turn (s : State) (r : Reg) : s.turn.tag r = s.tag r := rfl
@[simp] theorem ie_turn (s : State) : s.turn.ie = s.ie := rfl
@[simp] theorem busy_turn (s : State) : s.turn.busy = s.busy := rfl
@[simp] theorem done_turn (s : State) : s.turn.done = s.done := rfl
@[simp] theorem err_turn (s : State) : s.turn.err = s.err := rfl
@[simp] theorem cmd_turn (s : State) : s.turn.cmd = s.cmd := rfl
@[simp] theorem stream_turn (s : State) : s.turn.stream = s.stream.tail := rfl
@[simp] theorem resp_turn (s : State) : s.turn.resp = none := rfl

@[simp] theorem params_resetWith (c : Params) : (State.resetWith c).params = c := rfl
@[simp] theorem ie_resetWith (c : Params) : (State.resetWith c).ie = false := rfl
@[simp] theorem busy_resetWith (c : Params) : (State.resetWith c).busy = false := rfl
@[simp] theorem done_resetWith (c : Params) : (State.resetWith c).done = false := rfl
@[simp] theorem err_resetWith (c : Params) : (State.resetWith c).err = .ok := rfl
@[simp] theorem cmd_resetWith (c : Params) : (State.resetWith c).cmd = 0x00000000 := rfl
@[simp] theorem reg_resetWith (c : Params) (r : Reg) : (State.resetWith c).reg r = List.replicate c.n 0 := by
  simp [State.reg, State.resetWith]
@[simp] theorem tag_resetWith (c : Params) (r : Reg) : (State.resetWith c).tag r = .raw := by
  simp [State.tag, State.resetWith]

end Sys2Proof.Machine
end

