-- ==== Sys2Proof/Laws/Ops.lean ====
section
/-! SUPPORT. What the port, the completion and the step can do, said once each. -/

namespace Sys2Proof.Machine

/-! ## The address map -/

theorem windowAddr_toNat (r : Reg) {i : Nat} (hi : i < 256) :
    (windowAddr r i).toNat = 0x1000 + 0x400 * r.val + 4 * i := by
  have := r.isLt
  simp only [windowAddr, BitVec.toNat_ofNat]
  omega

theorem target_windowAddr (n : Nat) (r : Reg) {i : Nat} (hi : i < 256) :
    target n (windowAddr r i) = if i < n then .coef r i else .unmapped := by
  have hr := r.isLt
  have h := windowAddr_toNat r hi
  have e1 : (0x1000 + 0x400 * r.val + 4 * i - 0x1000) / 4 % 256 = i := by omega
  have e2 : (0x1000 + 0x400 * r.val + 4 * i - 0x1000) / 1024 = r.val := by omega
  have e3 : Fin.ofNat 8 r.val = r := by ext; simp
  rw [target, h, if_neg (by omega), if_pos (by omega)]
  simp only [windowTarget, e1, e2, e3]

theorem aligned_windowAddr (r : Reg) {i : Nat} (hi : i < 256) : aligned (windowAddr r i) = true := by
  simp only [aligned, windowAddr_toNat r hi, beq_iff_eq]
  omega

/-- An aligned address of a coefficient is the one of the formula of 20_memory.md R63. -/
theorem eq_windowAddr {n : Nat} {a : Addr} {r : Reg} {i : Nat} (h : target n a = .coef r i)
    (ha : aligned a = true) : a = windowAddr r i ∧ i < n ∧ i < 256 ∧ InWindow a := by
  have hcsr : ∀ off, csrTarget off ≠ .coef r i := by
    intro off; simp only [csrTarget]; split_ifs <;> simp
  simp only [aligned, beq_iff_eq] at ha
  simp only [target] at h
  split at h
  · exact absurd h (hcsr _)
  · split at h
    · simp only [windowTarget] at h
      split at h
      · rename_i h1 h2 h3
        injection h with hr hi
        subst hr hi
        refine ⟨?_, h3, by omega, by omega, h2⟩
        apply BitVec.eq_of_toNat_eq
        rw [windowAddr_toNat _ (by omega)]
        simp only [Fin.ofNat]
        omega
      · cases h
    · cases h

/-- The control and status registers, by offset (10_state.md R40). -/
theorem target_csr {n : Nat} {a : Addr} (h : a.toNat < 0x1000) : target n a = csrTarget a.toNat := by
  simp [target, h]

/-- An aligned address is unmapped in the sense of 20_memory.md R63 exactly when the map says so. -/
theorem target_unmapped_iff {n : Nat} {a : Addr} (ha : aligned a = true) :
    target n a = .unmapped ↔ Unmapped n a := by
  simp only [aligned, beq_iff_eq] at ha
  simp only [target, Unmapped]
  by_cases h1 : a.toNat < 0x1000
  · rw [if_pos h1]
    simp only [csrTarget]
    split_ifs <;> simp <;> omega
  · rw [if_neg h1]
    by_cases h2 : a.toNat < 0x3000
    · rw [if_pos h2]
      simp only [windowTarget]
      have : (a.toNat - 0x1000) / 4 % 256 = (a.toNat - 0x1000) % 0x400 / 4 := by omega
      rw [this]
      split_ifs <;> simp <;> omega
    · simp [h2]; omega

/-! ## The port -/

/-- Everything a write can do: an error response and no change, or the one effect of its target. -/
theorem memWrite_cases (s : State) (a : Addr) (strb : Strobes) (v : Word) :
    memWrite s a strb v = (s, true) ∨
    (a = 0x014 ∧ strb = 0b1111 ∧ memWrite s a strb v = (writeCtrl v s, false)) ∨
    (a = 0x018 ∧ strb = 0b1111 ∧ memWrite s a strb v = (writeStatus v s, false)) ∨
    (a = 0x01C ∧ strb = 0b1111 ∧ s.busy = false ∧ memWrite s a strb v = (acceptCommand v s, false)) ∨
    (∃ r i, i < s.params.n ∧ i < 256 ∧ a = windowAddr r i ∧ strb = 0b1111 ∧ s.busy = false ∧
      memWrite s a strb v = (writeCoef r i v s, false)) := by
  by_cases hl : (aligned a && strb == 0b1111) = true
  · obtain ⟨ha, hs⟩ : aligned a = true ∧ strb = 0b1111 := by simpa using hl
    have key : ∀ x, target s.params.n a = x → (x = .ctrl ∨ x = .status ∨ x = .cmd) →
        a.toNat = (match x with | .ctrl => 0x014 | .status => 0x018 | _ => 0x01C) := by
      intro x hx hor
      by_cases h1 : a.toNat < 0x1000
      · rw [target_csr h1, csrTarget] at hx
        split_ifs at hx <;> subst hx <;> simp_all
      · simp only [target, h1, if_false] at hx
        split_ifs at hx
        · simp only [windowTarget] at hx; split_ifs at hx <;> subst hx <;> simp at hor
        · subst hx; simp at hor
    simp only [memWrite, hl, if_true]
    cases ht : target s.params.n a with
    | ctrl => exact .inr (.inl ⟨BitVec.eq_of_toNat_eq (key _ ht (by simp)), hs, rfl⟩)
    | status => exact .inr (.inr (.inl ⟨BitVec.eq_of_toNat_eq (key _ ht (by simp)), hs, rfl⟩))
    | cmd =>
      have ha' : a = 0x01C := BitVec.eq_of_toNat_eq (key _ ht (by simp))
      cases hb : s.busy
      · exact .inr (.inr (.inr (.inl ⟨ha', hs, rfl, rfl⟩)))
      · exact .inl rfl
    | coef r i =>
      obtain ⟨h1, h2, h3, -⟩ := eq_windowAddr ht ha
      cases hb : s.busy
      · exact .inr (.inr (.inr (.inr ⟨r, i, h2, h3, h1, hs, rfl, rfl⟩)))
      · exact .inl rfl
    | _ => exact .inl rfl
  · exact .inl (by simp only [memWrite, hl]; rfl)

/-- A read of an address below the windows answers without error exactly when it names a register. -/
theorem memRead_unaligned {s : State} {a : Addr} (h : aligned a = false) : memRead s a = (0x00000000, true) := by
  simp [memRead, h, readError]

theorem memRead_window {s : State} (r : Reg) {i : Nat} (hi : i < 256) (hn : i < s.params.n) :
    memRead s (windowAddr r i) =
      if s.busy then (0x00000000, true) else (wordOfCoef (coef (s.reg r) i), false) := by
  simp [memRead, aligned_windowAddr r hi, target_windowAddr _ r hi, hn, readCoef, readError, readOk]

theorem memWrite_window {s : State} (r : Reg) {i : Nat} (v : Word) (hi : i < 256) (hn : i < s.params.n) :
    memWrite s (windowAddr r i) 0b1111 v =
      if s.busy then (s, true) else (writeCoef r i v s, false) := by
  simp [memWrite, aligned_windowAddr r hi, target_windowAddr _ r hi, hn, writeError, writeOk]

/-! Each register's read, once for `rw` and once (primed) with the address literal in the form `simp` leaves it in. -/

theorem memRead_id (s : State) : memRead s 0x000 = (idWord, false) := rfl
theorem memRead_cfgN (s : State) : memRead s 0x004 = (cfgNWord s.params, false) := rfl
theorem memRead_cfgP (s : State) : memRead s 0x008 = (cfgPWord s.params, false) := rfl
theorem memRead_cfgQ (s : State) : memRead s 0x00C = (cfgQWord s.params, false) := rfl
theorem memRead_cfgW (s : State) : memRead s 0x010 = (cfgWWord s.params, false) := rfl
theorem memRead_ctrl (s : State) : memRead s 0x014 = (ctrlWord s, false) := rfl
theorem memRead_status (s : State) : memRead s 0x018 = (statusWord s, false) := rfl
theorem memRead_cmd (s : State) : memRead s 0x01C = (s.cmd, false) := rfl
theorem memRead_tags (s : State) : memRead s 0x020 = (tagsWord s, false) := rfl

@[simp] theorem memRead_id' (s : State) : memRead s 0x000#14 = (idWord, false) := rfl
@[simp] theorem memRead_cfgN' (s : State) : memRead s 0x004#14 = (cfgNWord s.params, false) := rfl
@[simp] theorem memRead_cfgP' (s : State) : memRead s 0x008#14 = (cfgPWord s.params, false) := rfl
@[simp] theorem memRead_cfgQ' (s : State) : memRead s 0x00C#14 = (cfgQWord s.params, false) := rfl
@[simp] theorem memRead_cfgW' (s : State) : memRead s 0x010#14 = (cfgWWord s.params, false) := rfl
@[simp] theorem memRead_ctrl' (s : State) : memRead s 0x014#14 = (ctrlWord s, false) := rfl
@[simp] theorem memRead_status' (s : State) : memRead s 0x018#14 = (statusWord s, false) := rfl
@[simp] theorem memRead_cmd' (s : State) : memRead s 0x01C#14 = (s.cmd, false) := rfl
@[simp] theorem memRead_tags' (s : State) : memRead s 0x020#14 = (tagsWord s, false) := rfl

theorem memWrite_ctrl (s : State) (v : Word) : memWrite s 0x014 0b1111 v = (writeCtrl v s, false) := rfl

theorem memWrite_status (s : State) (v : Word) : memWrite s 0x018 0b1111 v = (writeStatus v s, false) := rfl

theorem memWrite_cmd (s : State) (v : Word) :
    memWrite s 0x01C 0b1111 v = if s.busy then (s, true) else (acceptCommand v s, false) := rfl

@[simp] theorem memWrite_ctrl' (s : State) (v : Word) : memWrite s 0x014#14 0b1111#4 v = (writeCtrl v s, false) := rfl

@[simp] theorem memWrite_status' (s : State) (v : Word) : memWrite s 0x018#14 0b1111#4 v = (writeStatus v s, false) := rfl

theorem memWrite_cmd' (s : State) (v : Word) :
    memWrite s 0x01C#14 0b1111#4 v = if s.busy then (s, true) else (acceptCommand v s, false) := rfl

/-- What a read below the windows depends on. -/
theorem memRead_low_congr {s t : State} {a : Addr} (ha : a.toNat < 0x1000) (hp : t.params = s.params)
    (hc : ctrlWord t = ctrlWord s) (hm : t.cmd = s.cmd) (hs : a ≠ 0x018 ∨ statusWord t = statusWord s)
    (ht : a ≠ 0x020 ∨ tagsWord t = tagsWord s) : memRead t a = memRead s a := by
  have hs' : a.toNat = 0x018 → statusWord t = statusWord s := fun h => hs.resolve_left (fun e => e (BitVec.eq_of_toNat_eq h))
  have ht' : a.toNat = 0x020 → tagsWord t = tagsWord s := fun h => ht.resolve_left (fun e => e (BitVec.eq_of_toNat_eq h))
  simp only [memRead, target_csr ha, hp, hc, hm]
  unfold csrTarget
  split_ifs <;> simp_all

/-! ## Completion -/

/-- A completion leaves everything outside the registers, the tags and STATUS alone. -/
theorem complete_sameControl (c : Completion) (s : State) : SameControl s (complete c s) := by
  constructor <;> simp

theorem complete_completed (c : Completion) (s : State) : Completed c.code (complete c s) := by
  constructor <;> simp

theorem okWrite_completed (rd : Reg) (m : MSel) (v : Poly) (s : State) : Completed .ok (complete (.okWrite rd m v) s) :=
  complete_completed (.okWrite rd m v) s

theorem noinv_completed (s : State) : Completed .noinv (complete .noinv s) := complete_completed .noinv s

theorem okWrite_sameRegsBut (rd : Reg) (m : MSel) (v : Poly) (s : State) :
    SameRegsBut rd s (complete (.okWrite rd m v) s) := by
  intro r hr
  simp [reg_complete_okWrite, tag_complete_okWrite, hr]

/-- Everything the completion of a command can do: it completes with OK and writes nothing (NOP), completes with OK and writes its
destination, or completes with NOINV (INV) and writes nothing. -/
theorem exec_cases (i : Instr) (s : State) :
    (i = .nop ∧ exec i s = .next (complete .okNothing s)) ∨
    (∃ d m rep a, destOf i = some d ∧
      exec i s = .next (complete (.okWrite d m (reducePoly s.params.n a (modsel s.params m) rep)) s)) ∨
    (∃ d, destOf i = some d ∧ exec i s = .next (complete .noinv s)) := by
  cases i with
  | nop => exact .inl ⟨rfl, rfl⟩
  | add m rep d a b => exact .inr (.inl ⟨d, m, rep, _, rfl, rfl⟩)
  | mul m rep d a b => exact .inr (.inl ⟨d, m, rep, _, rfl, rfl⟩)
  | red m rep d a => exact .inr (.inl ⟨d, m, rep, _, rfl, rfl⟩)
  | inv m rep d a =>
    simp only [exec, execInv, invCompletion]
    cases invMod s.params m (s.reg a) with
    | none => exact .inr (.inr ⟨d, rfl, rfl⟩)
    | some b => exact .inr (.inl ⟨d, m, rep, b, rfl, rfl⟩)

/-! ## The step -/

theorem engineTurn_eq {s : State} (h : s.EngineNext) : step s = engineTurn { s with stream := s.stream.tail } := by
  obtain h | ⟨rest, h⟩ := h
  · cases s; simp only at h; subst h; rfl
  · cases s; simp only at h; subst h; rfl

theorem step_turn_idle {s : State} (h : s.EngineNext) (hb : s.busy = false) : step s = .next s.turn := by
  rw [engineTurn_eq h]
  simp [engineTurn, hb, noResponse, State.turn]

theorem step_turn_busy {s : State} (h : s.EngineNext) (hb : s.busy = true) : step s = runCommand s.turn := by
  rw [engineTurn_eq h]
  simp [engineTurn, hb, noResponse, State.turn]

theorem step_host {s : State} {t : Txn} {rest : List Event} (h : s.stream = .host t :: rest) :
    step s = .next (transact t { s with stream := rest }) := by
  simp only [step, h]

theorem step_reset {s : State} {rest : List Event} (h : s.stream = .reset :: rest) :
    step s = .next { State.resetWith s.params with stream := rest } := by
  simp only [step, h]
  rfl

/-- Whose turn it is: the engine's, the host's or reset's. -/
theorem next_event (s : State) :
    s.EngineNext ∨ (∃ t rest, s.stream = .host t :: rest) ∨ ∃ rest, s.stream = .reset :: rest := by
  cases h : s.stream with
  | nil => exact .inl (.inl h)
  | cons e rest =>
    cases e with
    | host t => exact .inr (.inl ⟨t, rest, rfl⟩)
    | engine => exact .inl (.inr ⟨rest, h⟩)
    | reset => exact .inr (.inr ⟨rest, rfl⟩)

/-- Everything the completion step of the word in CMD can do. -/
theorem runCommand_cases (s : State) :
    ∃ c, runCommand s = .next (complete c s) ∧
      ((∃ e, decode s.cmd = .error e ∧ c = .illegal) ∨
       (decode s.cmd = .ok .nop ∧ c = .okNothing) ∨
       (∃ i d m rep a, decode s.cmd = .ok i ∧ destOf i = some d ∧
          c = .okWrite d m (reducePoly s.params.n a (modsel s.params m) rep)) ∨
       (∃ i d, decode s.cmd = .ok i ∧ destOf i = some d ∧ c = .noinv)) := by
  simp only [runCommand]
  cases hd : decode s.cmd with
  | error e => exact ⟨.illegal, rfl, .inl ⟨e, rfl, rfl⟩⟩
  | ok i =>
    obtain ⟨rfl, h⟩ | ⟨d, m, rep, a, hi, h⟩ | ⟨d, hi, h⟩ := exec_cases i s
    · exact ⟨.okNothing, h, .inr (.inl ⟨rfl, rfl⟩)⟩
    · exact ⟨_, h, .inr (.inr (.inl ⟨i, d, m, rep, a, rfl, hi, rfl⟩))⟩
    · exact ⟨.noinv, h, .inr (.inr (.inr ⟨i, d, rfl, hi, rfl⟩))⟩

/-- Everything a step can do: the completion step, an idle turn, one transaction, or reset. -/
theorem step_cases (s : State) :
    (s.EngineNext ∧ s.busy = true ∧ step s = runCommand s.turn) ∨
    (s.EngineNext ∧ s.busy = false ∧ step s = .next s.turn) ∨
    (∃ t rest, s.stream = .host t :: rest ∧ step s = .next (transact t { s with stream := rest })) ∨
    (∃ rest, s.stream = .reset :: rest ∧ step s = .next { State.resetWith s.params with stream := rest }) := by
  obtain h | ⟨t, rest, h⟩ | ⟨rest, h⟩ := next_event s
  · cases hb : s.busy
    · exact .inr (.inl ⟨h, rfl, step_turn_idle h hb⟩)
    · exact .inl ⟨h, rfl, step_turn_busy h hb⟩
  · exact .inr (.inr (.inl ⟨t, rest, h, step_host h⟩))
  · exact .inr (.inr (.inr ⟨rest, h, step_reset h⟩))

/-- `k + 1` steps are `k` steps and one more. -/
theorem run_succ {k : Nat} {s t : State} (h : core.run k s = .next t) : core.run (k + 1) s = step t := by
  induction k generalizing s with
  | zero =>
    cases h
    simp only [Host.Core.run]
    rw [show core.step t = step t from rfl]
    cases step t <;> rfl
  | succ k ih =>
    simp only [Host.Core.run] at h ⊢
    cases hs : core.step s with
    | next s' => rw [hs] at h; exact ih h
    | fault r => rw [hs] at h; cases h
    | refused r => rw [hs] at h; cases h

/-! ## Each operation keeps the invariant -/

theorem InCoefRange.zero (c : Params) : InCoefRange c 0 :=
  ⟨by simp, by positivity⟩

theorem inv_resetWith {c : Params} (h : c.Legal) : (State.resetWith c).Inv where
  legal := h
  length r := by simp
  range r x hx := by
    rw [reg_resetWith] at hx
    rw [List.eq_of_mem_replicate hx]
    exact .zero c
  busyDone := by simp

/-- Writing a polynomial in the right form to a register keeps the registers in form. -/
theorem inv_complete {s : State} (h : s.Inv) (c : Completion)
    (hc : ∀ d m v, c = .okWrite d m v → v.length = s.params.n ∧ ∀ x ∈ v, InCoefRange s.params x) :
    (complete c s).Inv := by
  cases c with
  | okWrite d m v =>
    obtain ⟨hl, hr⟩ := hc d m v rfl
    refine ⟨by simpa using h.legal, fun r => ?_, fun r x hx => ?_, by simp⟩
    · rw [reg_complete_okWrite]; split
      · simpa using hl
      · simpa using h.length r
    · rw [reg_complete_okWrite] at hx
      split at hx
      · simpa using hr x hx
      · simpa using h.range r x hx
  | okNothing => exact ⟨by simpa using h.legal, by simpa using h.length, by simpa using h.range, by simp⟩
  | illegal => exact ⟨by simpa using h.legal, by simpa using h.length, by simpa using h.range, by simp⟩
  | noinv => exact ⟨by simpa using h.legal, by simpa using h.length, by simpa using h.range, by simp⟩

theorem reducePoly_inForm {c : Params} (h : c.Legal) (a : Poly) (m : MSel) (rep : Rep) :
    (reducePoly c.n a (modsel c m) rep).length = c.n ∧
      ∀ x ∈ reducePoly c.n a (modsel c m) rep, InCoefRange c x := by
  refine ⟨by simp, fun x hx => ?_⟩
  obtain ⟨i, -, rfl⟩ := mem_polyOf hx
  obtain ⟨h1, h2⟩ := modsel_bounds h m
  exact canonical_inCoefRange h2 (reduce_canonical _ rep (by omega))

theorem inv_writeCoef {s : State} (h : s.Inv) (r : Reg) (i : Nat) (v : Word) : (writeCoef r i v s).Inv := by
  refine ⟨h.legal, fun r' => ?_, fun r' x hx => ?_, h.busyDone⟩
  · rw [reg_writeCoef]; split
    · simpa using h.length r
    · exact h.length r'
  · rw [reg_writeCoef] at hx
    split at hx
    · obtain hx | rfl := List.mem_or_eq_of_mem_set hx
      · exact h.range r x hx
      · exact coefOfWord_inRange h.legal v
    · exact h.range r' x hx

/-- Updates that touch neither the parameters, the registers nor BUSY, and do not set DONE, keep the invariant. -/
theorem inv_of_same {s t : State} (h : s.Inv) (hp : t.params = s.params) (hr : ∀ r, t.reg r = s.reg r)
    (hb : ¬(t.busy = true ∧ t.done = true)) : t.Inv where
  legal := hp ▸ h.legal
  length r := by rw [hr, hp]; exact h.length r
  range r x hx := by rw [hr] at hx; rw [hp]; exact h.range r x hx
  busyDone := hb

theorem inv_memWrite {s : State} (h : s.Inv) (a : Addr) (strb : Strobes) (v : Word) : (memWrite s a strb v).1.Inv := by
  obtain e | ⟨-, -, e⟩ | ⟨-, -, e⟩ | ⟨-, -, -, e⟩ | ⟨r, i, -, -, -, -, -, e⟩ := memWrite_cases s a strb v <;> rw [e]
  · exact h
  · exact inv_of_same h rfl (fun _ => rfl) h.busyDone
  · refine inv_of_same h rfl (fun _ => rfl) ?_
    have := h.busyDone
    simp only [busy_writeStatus, done_writeStatus]
    cases hb : s.busy <;> simp_all
  · exact inv_of_same h rfl (fun _ => rfl) (by simp)
  · exact inv_writeCoef h r i v

theorem inv_withResp {s : State} (h : s.Inv) (p : Option Response) : State.Inv { s with resp := p } :=
  inv_of_same h rfl (fun _ => rfl) h.busyDone

theorem inv_withStream {s : State} (h : s.Inv) (l : List Event) : State.Inv { s with stream := l } :=
  inv_of_same h rfl (fun _ => rfl) h.busyDone

theorem inv_transact {s : State} (h : s.Inv) (t : Txn) : (transact t s).Inv := by
  cases t with
  | read a => exact inv_withResp h _
  | write a strb v => exact inv_withResp (inv_memWrite h a strb v) _

end Sys2Proof.Machine
end

