-- ==== Sys2Proof/Laws/Inverse.lean ====
section
/-! SUPPORT. What `invMod` answers for either modulus of a legal parameter set (42_inverse.md R151 to R155). -/

namespace Sys2Proof.Machine

/-- An inverse modulo Q exists exactly when one modulo 2 does (42_inverse.md R154). -/
theorem invertible_pow_two_iff {n qe : Nat} (hn : 1 ≤ n) (hq : 2 ≤ qe) (a : Poly) :
    Invertible n (2 ^ qe) a ↔ Invertible n 2 a := by
  constructor
  · rintro ⟨b, hb, h⟩
    exact ⟨b, hb, isInverse_of_dvd hn (two_le_two_pow (e := qe) (by omega)) le_rfl (dvd_pow_self 2 (by omega)) h⟩
  · rintro ⟨b, -, h⟩
    have h' := liftLoop_lifted (qe := qe) hn a qe 1 b le_rfl (by omega) (by have := Nat.lt_two_pow_self (n := qe); omega) h
    obtain ⟨h1, c, hc⟩ := h'
    exact ⟨_, by rw [hc]; simp, h1⟩

/-- `inv_pow2` (42_inverse.md R155): the inverse modulo 2^qe in the non-negative range, or none when there is none. -/
theorem invPow2_spec {n qe : Nat} (hn : 1 ≤ n) (hq : 2 ≤ qe) (a : Poly) :
    (∀ b, invPow2 n qe a = some b → Lifted n (2 ^ qe) a b) ∧ (invPow2 n qe a = none → ¬Invertible n (2 ^ qe) a) := by
  obtain ⟨h1, h2⟩ := invPrime_spec (p := 2) hn (by norm_num) a
  rw [invertible_pow_two_iff hn hq, invPow2]
  cases h : invPrime n 2 a with
  | none => exact ⟨by simp, fun _ => h2 h⟩
  | some b =>
    refine ⟨?_, by simp⟩
    rintro b' hb
    simp only [Option.some.injEq] at hb
    subst hb
    exact liftLoop_lifted (qe := qe) hn a qe 1 b le_rfl (by omega) (by have := Nat.lt_two_pow_self (n := qe); omega) (h1 b h).1

/-- The exponent of Q is at least 2 (00_scope.md R7). -/
theorem two_le_qe {c : Params} (h : c.Legal) : 2 ≤ c.qe := by
  have h2 := h.p_prime.two_le
  have h3 := h.p_odd
  have h4 := h.p_lt_q
  rw [Params.q] at h4
  by_contra hlt
  have : 2 ^ c.qe ≤ 2 ^ 1 := Nat.pow_le_pow_right (by omega) (by omega)
  omega

/-- P fits the Fermat inverse (00_scope.md R7, R8). -/
theorem p_le {c : Params} (h : c.Legal) : c.p ≤ 2 ^ 32 := by
  have h1 := h.p_lt_q
  have h2 := h.q_le
  have h3 := h.cw_le
  have : 2 ^ (c.cw - 1) ≤ 2 ^ 32 := Nat.pow_le_pow_right (by omega) (by omega)
  omega

/-- `inv_m(a)` (42_inverse.md R150, R151): an inverse, or none when there is none. -/
theorem invMod_spec {c : Params} (h : c.Legal) (m : MSel) (a : Poly) :
    (∀ b, invMod c m a = some b → IsInverse c.n (modsel c m) a b) ∧
    (invMod c m a = none → ¬Invertible c.n (modsel c m) a) := by
  cases m with
  | p =>
    have : Fact c.p.Prime := ⟨h.p_prime⟩
    obtain ⟨h1, h2⟩ := invPrime_spec h.one_le_n (p_le h) a
    exact ⟨fun b hb => (h1 b hb).1, h2⟩
  | q =>
    obtain ⟨h1, h2⟩ := invPow2_spec h.one_le_n (two_le_qe h) a
    exact ⟨fun b hb => (h1 b hb).1, h2⟩

/-- Everything INV can do: with an inverse it completes with OK and writes the inverse, reduced into the range; with none it
completes with NOINV and writes nothing (42_inverse.md R150). -/
theorem execInv_cases {s : State} (h : s.params.Legal) (m : MSel) (rep : Rep) (rd ra : Reg) :
    (∃ b, IsInverse s.params.n (modsel s.params m) (s.reg ra) b ∧
      exec (.inv m rep rd ra) s = .next (complete (.okWrite rd m (reducePoly s.params.n b (modsel s.params m) rep)) s)) ∨
    (¬Invertible s.params.n (modsel s.params m) (s.reg ra) ∧
      exec (.inv m rep rd ra) s = .next (complete .noinv s)) := by
  obtain ⟨h1, h2⟩ := invMod_spec h m (s.reg ra)
  simp only [exec, execInv, invCompletion]
  cases hi : invMod s.params m (s.reg ra) with
  | none => exact .inr ⟨h2 hi, rfl⟩
  | some b => exact .inl ⟨b, h1 b hi, rfl⟩

end Sys2Proof.Machine
end

