-- ==== Sys2Proof/Laws/PerInstr.lean ====
section
/-! SUPPORT. Statements for all commands, one lemma per constructor: `RowMatch`, that a command is well-formed and its word is
accepted by its own row of the table of 30_encoding.md R95. -/

namespace Sys2Proof.Laws.RowMatch

/-- The fields are well-formed, the row is one of the table's, and the word has the row's fixed bits (R90, R95). -/
def Statement (i : Instr) : Prop := i.WellFormed ∧ i.row ∈ rows ∧ encode i &&& i.row.mask = i.row.pattern

theorem nop : Statement .nop := by unfold Statement; decide

theorem add (m : MSel) (r : Rep) (d a b : Reg) : Statement (.add m r d a b) := by
  unfold Statement
  refine ⟨?_, by simp [Instr.row, rows], ?_⟩ <;> cases m <;> cases r <;> revert d a b <;> decide +kernel

theorem mul (m : MSel) (r : Rep) (d a b : Reg) : Statement (.mul m r d a b) := by
  unfold Statement
  refine ⟨?_, by simp [Instr.row, rows], ?_⟩ <;> cases m <;> cases r <;> revert d a b <;> decide +kernel

theorem red (m : MSel) (r : Rep) (d a : Reg) : Statement (.red m r d a) := by
  unfold Statement
  refine ⟨?_, by simp [Instr.row, rows], ?_⟩ <;> cases m <;> cases r <;> revert d a <;> decide +kernel

theorem inv (m : MSel) (r : Rep) (d a : Reg) : Statement (.inv m r d a) := by
  unfold Statement
  refine ⟨?_, by simp [Instr.row, rows], ?_⟩ <;> cases m <;> cases r <;> revert d a <;> decide +kernel

end Sys2Proof.Laws.RowMatch
end

