-- ==== Sys2Proof/Tests/Slice0.lean ====
section
/-! SUPPORT. The model's own tests. Expected values are the spec's own (30_encoding.md R100, 95_test_vectors.md) or written out by
hand from its tables; and for every obligation with hypotheses a state and operands that meet them. -/

namespace Sys2Proof.Tests

open Sys2Proof.Machine

/-! ## WellFormed refuses each ill-formed term (30_encoding.md R90, R91, R94, R95) -/

/-- Fields of `add.q PR2, PR0, PR1`, from which each ill-formed term departs in one field. -/
def addFields : CommandFields := { op := 1, msel := 1, rep := 0, rd := 2, ra := 0, rb := 1 }

theorem test_wellFormed_accepts : addFields.wellFormed = true := by decide

theorem test_opDefined_refuses : CommandFields.opDefined { addFields with op := 5 } = false ∧
    CommandFields.wellFormed { addFields with op := 5 } = false := by decide

theorem test_optionsFit_refuses : CommandFields.wellFormed { addFields with msel := 2 } = false ∧
    CommandFields.wellFormed { addFields with rep := 2 } = false := by decide

theorem test_registersFit_refuses : CommandFields.wellFormed { addFields with rd := 8 } = false ∧
    CommandFields.wellFormed { addFields with ra := 8 } = false ∧
    CommandFields.wellFormed { addFields with rb := 8 } = false := by decide

theorem test_unusedZero_refuses : CommandFields.wellFormed { addFields with op := 3 } = false ∧
    CommandFields.wellFormed { addFields with op := 4 } = false ∧
    CommandFields.wellFormed { addFields with op := 0 } = false := by decide

/-! ## Decoding: words written out bit by bit from R90, the fields from the top: 31:19, RB, 15, RA, 11, RD, 7:6, REP, MSEL, OP -/

theorem test_decode_nop : decode 0b0000000000000_000_0_000_0_000_00_0_0_0000 = .ok .nop := by decide

theorem test_decode_add :
    decode 0b0000000000000_110_0_101_0_011_00_0_1_0001 = .ok (.add .q .sym 3 5 6) := by decide

theorem test_decode_mul :
    decode 0b0000000000000_001_0_100_0_111_00_1_0_0010 = .ok (.mul .p .nonneg 7 4 1) := by decide

theorem test_decode_red :
    decode 0b0000000000000_000_0_110_0_001_00_1_1_0011 = .ok (.red .q .nonneg 1 6) := by decide

theorem test_decode_inv :
    decode 0b0000000000000_000_0_010_0_101_00_0_1_0100 = .ok (.inv .q .sym 5 2) := by decide

/-- The ILLEGAL words of 95_test_vectors.md L2.6. -/
theorem test_decode_illegal :
    decode 0x00000010 = .error .reservedBits ∧ decode 0x00000020 = .error .reservedBits ∧
    decode 0x00000005 = .error .reservedOp ∧ decode 0x0000000F = .error .reservedOp ∧
    decode 0x00000041 = .error .reservedBits ∧ decode 0x00000080 = .error .reservedBits ∧
    decode 0x00000801 = .error .reservedBits ∧ decode 0x00080001 = .error .reservedBits ∧
    decode 0x80000002 = .error .reservedBits ∧ decode 0x00010003 = .error .reservedBits ∧
    decode 0x00010004 = .error .reservedBits := by decide

/-- Words of R100 through the byte form; a number with a bit above the one word is no command. -/
theorem test_decodeTableWord :
    decodeTableWord 32 0x00032412 = some (.mul .q .sym 4 2 3) ∧ decodeTableWord 32 0x00000005 = none ∧
    decodeTableWord 40 0x100000000 = none ∧ bytesOfWord 0x00032412 = [0x12, 0x24, 0x03, 0x00] := by decide

/-- R100 and R101: text and word, capitals, defaults, a pseudo-instruction, `.word`, and a text outside the syntax. -/
theorem test_assemble :
    Assembler.assemble "inv.q.u PR2, PR0" = some 0x00000234 ∧ Assembler.assemble "ADD.Q.S pr2,PR0 , PR1" = some 0x00010211 ∧
    Assembler.assemble "sqr.q PR0, PR0" = some 0x00000012 ∧ Assembler.assemble ".word 0x80000002" = some 0x80000002 ∧
    Assembler.assemble "add PR2, PR0, PR1" = none ∧ Assembler.assemble "red.p PR8, PR0" = none := by decide +kernel

theorem test_wordText : Assembler.wordText 0x00077722 = "mul.p.u PR7, PR7, PR7" ∧
    Assembler.wordText 0x00010003 = ".word 0x00010003" := by decide +kernel

/-! ## Commands, at the reference parameters -/

/-- f of 95_test_vectors.md. -/
def f : Poly := [-1, 1, 1, 0, -1, 0, 1, 0, 0, 1, -1]

/-- g of 95_test_vectors.md: balanced, so never invertible. -/
def g : Poly := [-1, 0, 1, 1, 0, 1, 0, 0, -1, 0, -1]

/-- The reset state with PR0 = a and PR1 = b. -/
def start (a b : Poly) : State := (State.reset.setReg 0 a).setReg 1 b

/-- The next state of an outcome. -/
def nextOf : Host.Outcome State Fault Refusal → Option State
  | .next t => some t
  | .fault _ => none
  | .refused _ => none

/-- A register and the code after one command from `start a b`. -/
def result (i : Instr) (a b : Poly) (r : Reg) : Option (Poly × Code) :=
  (nextOf (exec i (start a b))).map fun t => (t.reg r, t.err)

/-- L2.6: STATUS reads 2 after a NOP. -/
theorem test_nop_status : (nextOf (exec .nop (start f g))).map (fun t => memRead t 0x018) = some (0x00000002, false) := by decide

/-- L2.2: an exact sum beyond CW bits. -/
theorem test_add_wide :
    result (.add .q .sym 2 0 1) (List.replicate 11 32767) (List.replicate 11 32767) 2 = some (List.replicate 11 (-2), .ok) := by
  decide +kernel

/-- L2.2: source and destination the same register. -/
theorem test_add_double : result (.add .p .sym 0 0 0) f g 0 = some ([1, -1, -1, 0, 1, 0, -1, 0, 0, -1, 1], .ok) := by
  decide +kernel

/-- R136: each exact coefficient is 11811160064 - 720885 = 11810439179, which is 11 modulo 32. -/
theorem test_mul_wide :
    result (.mul .q .sym 2 0 1) (List.replicate 11 32767) (List.replicate 11 32767) 2 = some (List.replicate 11 11, .ok) := by
  decide +kernel

/-- L2.3, L3-5: squaring in place. -/
theorem test_mul_square : result (.mul .q .sym 0 0 0) f g 0 = some ([1, -3, -3, 4, 5, -4, -4, 3, 1, -1, 2], .ok) := by
  decide +kernel

/-- R139's example, with the tie 16 and -16. -/
theorem test_red : result (.red .q .sym 1 0) [16, -16, 17, -15, 31, 32, -1, 0, 5, -5, 100] g 1 =
    some ([16, 16, -15, -15, -1, 0, -1, 0, 5, -5, 4], .ok) := by
  decide +kernel

/-- L2.5: f modulo 32 in the non-negative range. -/
theorem test_inv_lifted : result (.inv .q .nonneg 1 0) f g 1 = some ([5, 9, 6, 16, 4, 15, 16, 22, 20, 18, 30], .ok) := by
  decide +kernel

/-- L2.5: f modulo 3 in place; and g, in place, has no inverse and stays. -/
theorem test_inv_in_place : result (.inv .p .sym 0 0) f g 0 = some ([1, -1, 0, -1, -1, 1, 0, -1, 1, -1, 0], .ok) ∧
    result (.inv .p .sym 1 1) f g 1 = some (g, .noinv) := by
  decide +kernel

/-! ## The port (95_test_vectors.md L2.7) -/

theorem test_port_reads :
    [0x000, 0x004, 0x008, 0x00C, 0x010, 0x018, 0x020, 0x1002, 0x102C, 0x024, 0x3000, 0x2C00, 0x2C28].map (memRead State.reset) =
    [(0x4E524531, false), (0x0000000B, false), (0x00000003, false), (0x00000020, false), (0x00000810, false),
     (0x00000000, false), (0x00000000, false), (0x00000000, true), (0x00000000, true), (0x00000000, true),
     (0x00000000, true), (0x00000000, false), (0x00000000, false)] := by decide

/-- A write and then a read of the same offset, from reset. -/
def writeThenRead (a : Addr) (v : Word) : Bool × Word :=
  let x := memWrite State.reset a 0b1111 v
  (x.2, (memRead x.1 a).1)

theorem test_port_writes :
    writeThenRead 0x1000 0x00012345 = (false, 0x00002345) ∧ writeThenRead 0x1004 0x0000FFFF = (false, 0xFFFFFFFF) ∧
    writeThenRead 0x1008 0x00008000 = (false, 0xFFFF8000) ∧ writeThenRead 0x100C 0xFFFF7FFF = (false, 0x00007FFF) ∧
    writeThenRead 0x014 0xFFFFFFFF = (false, 0x00000001) ∧ writeThenRead 0x018 0xFFFFFFFF = (false, 0x00000000) ∧
    writeThenRead 0x000 0 = (true, 0x4E524531) ∧ writeThenRead 0x020 0 = (true, 0x00000000) ∧
    memWrite State.reset 0x1000 0b0011 5 = (State.reset, true) := by decide +kernel

/-! ## Steps -/

/-- A busy NRE with a command word accepted and events to come. -/
def busyState (w : Word) (evs : List Event) : State := { acceptCommand w (start f g) with stream := evs }

/-- The first command after reset, as the host asks for it: `red.p PR1, PR0` of R100. -/
theorem test_step_withFetchWord :
    (nextOf (step (State.reset.withFetchWord 32 0x00000103))).map (fun t => (t.err, t.tag 1, memRead t 0x01C)) =
      some (.ok, .modp, (0x00000103, false)) := by decide +kernel

/-- L3-4: a window read while busy is refused and the command stays in flight. -/
theorem test_step_busy_read :
    (nextOf (step (busyState 0x00000000 [rd 0x1000]))).map (fun t => (t.resp, t.busy)) =
      some (some (.read 0x00000000 true), true) := by decide +kernel

/-- R191: reset abandons the command. -/
theorem test_step_reset : (nextOf (step (busyState 0x00010211 [.reset]))).map (fun t => (t.busy, t.done, t.cmd, t.reg 0)) =
    some (false, false, 0x00000000, List.replicate 11 0) := by decide +kernel

/-! ## Witnesses: parameters, invariants -/

theorem witness_legal : Params.reference.Legal where
  one_le_n := by decide
  n_le := by decide
  p_prime := by decide
  p_odd := by decide
  p_lt_q := by decide
  three_le_cw := by decide
  cw_le := by decide
  q_le := by decide

/-- The extremes of R5 to R8: N = 1 with the least CW and Q; N = 256 with the largest. -/
theorem witness_legal_extremes : Params.Legal { n := 1, p := 3, qe := 2, cw := 3 } ∧
    Params.Legal { n := 256, p := 3, qe := 31, cw := 32 } := by
  constructor <;> exact ⟨by decide, by decide, by decide, by decide, by decide, by decide, by decide, by decide⟩

theorem witness_reset_inv : State.reset.Inv := inv_resetWith witness_legal

/-- f is in the CW-bit range, so the busy state meets the invariant: StepKeepsInvariant, CoefficientWriteStores (BUSY = 1). -/
theorem witness_busy_inv (w : Word) (evs : List Event) : (busyState w evs).Inv where
  legal := witness_legal
  length := by intro r; fin_cases r <;> rfl
  range := by
    have h : ∀ r, ∀ x ∈ (start f g).reg r, -32768 ≤ x ∧ x < 32768 := by decide +kernel
    intro r x hx
    exact h r x hx
  busyDone := by simp [busyState]

/-- StepKeepsInvariant. -/
theorem witness_step_inv : State.reset.Inv ∧ ∃ t, step State.reset = .next t := ⟨witness_reset_inv, _, rfl⟩

/-- PR0 = 1 with tag MODP, as `red.p` leaves it. -/
def taggedState : State := complete (.okWrite 0 .p (reducePoly 11 (onePoly 11) 3 .sym)) State.reset

/-- StepKeepsTagsTruthful: a state whose tags are truthful and not all RAW. -/
theorem witness_step_tags : taggedState.Inv ∧ taggedState.TagsTruthful ∧ taggedState.tag 0 = .modp ∧
    ∃ t, step taggedState = .next t := by
  refine ⟨inv_complete witness_reset_inv _ ?_, fun r m hm => ?_, by decide, _, rfl⟩
  · intro d m v h
    cases h
    exact reducePoly_inForm witness_legal _ .p .sym
  · rw [taggedState, tag_complete_okWrite] at hm
    split at hm
    · rename_i hr
      subst hr
      cases m
      · exact ⟨.sym, by unfold Canonical; decide +kernel⟩
      · cases hm
    · rw [show State.reset.tag r = .raw from tag_resetWith _ r] at hm
      cases m <;> cases hm

/-! ## Witnesses: encoding -/

/-- FieldsOfLegalWords, DecodeAndEncodeAgree, at every field's greatest value. -/
theorem witness_decode : decode 0x00077732 = .ok (.mul .q .nonneg 7 7 7) ∧ encode (.mul .q .nonneg 7 7 7) = 0x00077732 := by decide

/-- ReservedWordsAreIllegal, each clause, by the test words above: OP 5; OP 4 with bit 6; RED with RB; OP 0 with MSEL; legal. -/
theorem witness_reserved :
    5 ≤ (0x00000005 : Word).toNat % 16 ∧
    ((0x00000044 : Word).toNat % 16 ≤ 4 ∧ (0x00000044 : Word).toNat / 2 ^ 6 % 4 ≠ 0) ∧
    ((0x00010003 : Word).toNat % 16 = 3 ∧ (0x00010003 : Word).toNat / 2 ^ 16 % 8 ≠ 0) ∧
    ((0x00000010 : Word).toNat % 16 = 0 ∧ (0x00000010 : Word).toNat ≠ 0) ∧ (∃ i, decode 0x00077731 = .ok i) := by
  exact ⟨by decide, by decide, by decide, by decide, _, rfl⟩

/-! ## Witnesses: the step -/

/-- StepRunsDecodedCommand, with a token and with nothing to come. -/
theorem witness_engine : (busyState 0x00010211 []).busy = true ∧ (busyState 0x00010211 []).EngineNext ∧
    (busyState 0x00010211 [.engine, rd 0x018]).EngineNext ∧
    decode (busyState 0x00010211 []).cmd = .ok (.add .q .sym 2 0 1) := by
  exact ⟨rfl, .inl rfl, .inr ⟨_, rfl⟩, by decide⟩

/-- IllegalCommandCompletes. -/
theorem witness_illegal : (busyState 0x00000005 []).busy = true ∧ (busyState 0x00000005 []).EngineNext ∧
    decode (busyState 0x00000005 []).cmd = .error .reservedOp := by
  exact ⟨rfl, .inl rfl, by decide⟩

/-- StepOfTransactionsAndIdleTurns, each clause; ResetAbandonsCommand. -/
theorem witness_events : (busyState 0 [rd 0x018]).stream = .host (.read 0x018) :: [] ∧
    (busyState 0 [wr 0x014 1]).stream = .host (.write 0x014 0b1111 1) :: [] ∧
    State.reset.busy = false ∧ State.reset.EngineNext ∧ (busyState 0 [.reset]).stream = .reset :: [] := by
  exact ⟨rfl, rfl, rfl, .inl rfl, rfl⟩

/-- FetchWordRunsNext, at the greatest legal word. -/
theorem witness_fetch : 0x00077732 < 2 ^ 32 ∧ decodeTableWord 32 0x00077732 = some (.mul .q .nonneg 7 7 7) := by decide

/-- CommandInFlightIsIsolated: a command in flight with every kind of transaction to come, and the engine's turn among them. -/
theorem witness_inFlight : (busyState 0x00010211 [rd 0x1000, wr 0x1000 7, .engine, wr 0x01C 0]).busy = true ∧
    ∀ e ∈ (busyState 0x00010211 [rd 0x1000, wr 0x1000 7, .engine, wr 0x01C 0]).stream, e ≠ .reset := by
  exact ⟨rfl, by decide⟩

/-- CommandsReadOnlyRegisters: two states that differ in tags, codes and control bits. -/
theorem witness_sameRegs : (start f g).params = (busyState 7 []).params ∧ (start f g).pr = (busyState 7 []).pr ∧
    (start f g).cmd ≠ (busyState 7 []).cmd := by
  exact ⟨rfl, rfl, by decide⟩

/-- RegistersChangeOnlyByHostOrCompletion: a register that changes by a host write, by a completion and by reset. -/
theorem witness_register_changes :
    ((nextOf (step { start f g with stream := [wr 0x1000 7] })).map fun t => t.reg 0) = some (f.set 0 7) ∧
    ((nextOf (step (busyState 0x00000234 []))).map fun t => t.tag 2) = some .modq ∧
    ((nextOf (step { start f g with stream := [.reset] })).map fun t => t.reg 0) = some (List.replicate 11 0) := by
  decide +kernel

/-- ControlStateChangesOnlyAsStated: IE, ERR, CMD and BUSY, the fall of BUSY with the rise of DONE, and both falls of DONE. -/
theorem witness_control_changes :
    ((nextOf (step { start f g with stream := [wr 0x014 1] })).map State.ie) = some true ∧
    ((nextOf (step { start f g with stream := [wr 0x01C 5] })).map fun t => (t.cmd, t.busy)) = some (5, true) ∧
    ((nextOf (step (busyState 5 []))).map fun t => (t.err, t.busy, t.done)) = some (.illegal, false, true) ∧
    ((nextOf (step { start f g with done := true, stream := [wr 0x018 2] })).map State.done) = some false ∧
    ((nextOf (step { start f g with done := true, stream := [wr 0x01C 0] })).map State.done) = some false := by
  decide +kernel

/-- CompletionFrame: addresses its last clause speaks of, in a register file, another window, an unmapped hole. -/
theorem witness_frame_addr : ∀ a ∈ [(0x01C : Addr), 0x1000, 0x3000], a ≠ 0x018 ∧ a ≠ 0x020 ∧
    ∀ d k, destOf (.add .q .sym 2 0 1) = some d → k < 256 → a ≠ windowAddr d k := by
  have h : ∀ a ∈ [(0x01C : Addr), 0x1000, 0x3000], a ≠ 0x018 ∧ a ≠ 0x020 ∧ (a.toNat < 0x1800 ∨ 0x1C00 ≤ a.toNat) := by
    simp only [List.forall_mem_cons]; decide
  intro a ha
  obtain ⟨h1, h2, h3⟩ := h a ha
  refine ⟨h1, h2, fun d k hd hk e => ?_⟩
  obtain rfl : 2 = d := Option.some.inj hd
  have hw := windowAddr_toNat 2 hk
  rw [← e] at hw
  simp only [Fin.isValue, Fin.val_two] at hw
  omega

/-! ## Witnesses: the port -/

/-- UnmappedAccessesRefused, MisalignedOrPartialRefused, WindowRefusedWhileBusy, ErrorResponsesHaveFiveCauses, at the ends of the
ranges of 20_memory.md R63, with N = 11. -/
theorem witness_addresses :
    (∀ a ∈ [(0x024 : Addr), 0xFFC, 0x102C, 0x13FC, 0x2FFC, 0x3000, 0x3FFC], Unmapped 11 a) ∧
    (∀ a ∈ [(0x1000 : Addr), 0x1028, 0x2C28, 0x2FFC], InWindow a) ∧
    (∀ a ∈ [(0x020 : Addr), 0x1000, 0x1028, 0x2C28], ¬Unmapped 11 a) ∧
    (0x1002 : Addr).toNat % 4 ≠ 0 ∧ (0b0011 : Strobes) ≠ 0b1111 ∧ (0x020 : Addr) ∈ readOnlyAddrs := by
  simp [Unmapped, InWindow, readOnlyAddrs]

/-- WindowAddressMap: the first and last window word, both ends of the hole and of the top. -/
theorem witness_windowAddr : windowAddr 0 0 = 0x1000 ∧ windowAddr 7 255 = 0x2FFC ∧ windowAddr 7 10 = 0x2C28 ∧
    target 256 0x2FFC = .coef 7 255 ∧ target 11 0x020 = .tags ∧ target 11 0x024 = .unmapped ∧ target 11 0x3FFC = .unmapped := by
  decide +kernel

/-- CoefficientWriteStores, CoefficientReadSignExtends: the last coefficient, idle and busy. -/
theorem witness_coefficient : (State.reset.Inv ∧ 10 < State.reset.params.n ∧ State.reset.busy = false) ∧
    ((busyState 0 []).Inv ∧ 10 < (busyState 0 []).params.n ∧ (busyState 0 []).busy = true) :=
  ⟨⟨witness_reset_inv, by decide, rfl⟩, ⟨witness_busy_inv _ _, by decide, rfl⟩⟩

/-- TagsRegisterReads: a step between two busy states. -/
theorem witness_stays_busy : ((nextOf (step (busyState 0x00010211 [wr 0x1000 7]))).map State.busy) = some true := by
  decide +kernel

/-- OnlyCommandWritesRepeatDifferently, CommandIsAccepted, CommandIsRefusedWhileBusy, CmdReadsLastAcceptedWord. -/
theorem witness_cmd_write : State.reset.busy = false ∧ (busyState 0 []).busy = true ∧ (0x014 : Addr) ≠ 0x01C ∧
    decode 0x00000041 = .error .reservedBits ∧
    (∃ t, memWrite State.reset 0x01C 0b1111 0x41 = (t, false)) := by
  exact ⟨rfl, rfl, by decide, by decide, _, rfl⟩

/-! ## Witnesses: arithmetic -/

/-- ReduceIsTheCanonicalRepresentative, AddAndRedAreLanewise, RingLawsHold, MulByZeroAndOne, RedConvertsBetweenRanges: the least
degree and modulus the statements allow, and the ties of L2.1. -/
theorem witness_arithmetic : 1 ≤ (1 : Nat) ∧ 2 ≤ (2 : Nat) ∧ reduce 16 32 .sym = 16 ∧ reduce (-16) 32 .sym = 16 ∧
    reduce 17 32 .sym = -15 ∧ reduce (-2) 3 .sym = 1 ∧ reduce (-1) 32 .nonneg = 31 ∧ (32 : Int) ∣ 33 - 1 ∧
    coef [1, 2] 0 = coef [1, 5] 0 := by decide

/-- RangePitfall: -1, the negative coefficient of R139's corner case. -/
theorem witness_pitfall : Params.reference.Legal ∧ Canonical (-1) Params.reference.q .sym ∧ (-1 : Int) < 0 ∧
    reduce 31 3 .sym = 1 ∧ reduce (-1) 3 .sym = -1 := by
  exact ⟨witness_legal, by unfold Canonical; decide, by decide, by decide, by decide⟩

/-! ## Witnesses: commands (with `witness_legal`, which each takes) -/

/-- AddWritesReducedSum, MulWritesReducedConvolution, RedWritesReducedSource, NopOnlyCompletes and both InvMod statements. -/
theorem witness_command_state : (start f g).params.Legal := witness_legal

/-- f has inverses modulo 3 and 32 (L1-3): the OK clause of both InvMod statements. -/
theorem witness_invertible : (start f g).params.Legal ∧ Invertible (start f g).params.n (start f g).params.p ((start f g).reg 0) ∧
    Invertible (start f g).params.n (start f g).params.q ((start f g).reg 0) := by
  refine ⟨witness_legal, ⟨[1, -1, 0, -1, -1, 1, 0, -1, 1, -1, 0], by decide, ?_⟩, ⟨[5, 9, 6, 16, 4, 15, 16, -10, -12, -14, -2], by decide, ?_⟩⟩
  · unfold IsInverse; decide +kernel
  · unfold IsInverse; decide +kernel

/-- g has none (L2.5): the NOINV clause of both. -/
theorem witness_not_invertible : (start f g).params.Legal ∧ ¬Invertible (start f g).params.n (start f g).params.p ((start f g).reg 1) ∧
    ¬Invertible (start f g).params.n (start f g).params.q ((start f g).reg 1) := by
  refine ⟨witness_legal, ?_, ?_⟩
  · exact (invMod_spec witness_legal .p g).2 (by decide +kernel)
  · exact (invMod_spec witness_legal .q g).2 (by decide +kernel)

/-- InvModPExistsIffCoprime: a source that is 0 modulo P but not 0, the constant 33 of R158. -/
theorem witness_zero_mod_p :
    let s := start [33, 0, 0, 0, 0, 0, 0, 0, 0, 0, 0] g
    s.params.Legal ∧ ∀ i < s.params.n, (s.params.p : Int) ∣ coef (s.reg 0) i :=
  ⟨witness_legal, by decide +kernel⟩

/-- InvThenMulGivesOne: INV into its own source, and a state that holds both polynomials again. -/
theorem witness_inv_then_mul : (start f g).params.Legal ∧ ∃ t u : State, exec (.inv .q .sym 0 0) (start f g) = .next t ∧ t.err = .ok ∧
    u.params = (start f g).params ∧ u.reg 1 = (start f g).reg 0 ∧ u.reg 0 = t.reg 0 := by
  obtain ⟨b, -, e⟩ | ⟨hn, -⟩ := execInv_cases (s := start f g) witness_legal .q .sym 0 0
  · refine ⟨witness_legal, _, ?_, e, rfl, ?_⟩
    · exact (complete (.okWrite 0 .q (reducePoly (start f g).params.n b (modsel (start f g).params .q) .sym)) (start f g)).setReg 1
        ((start f g).reg 0)
    · exact ⟨by simp, by simp, by rw [reg_setReg, if_neg (by decide)]⟩
  · exact absurd witness_invertible.2.2 hn

/-- LiftingScheduleIsFree: L1-7's inverse of f modulo 2 and the doubling schedule; and the squaring one. -/
theorem witness_schedule : (1 ≤ 11 ∧ 2 ≤ 5) ∧ invPrime 11 2 f = some [1, 1, 0, 0, 0, 1, 0, 0, 0, 0, 0] ∧ GoodSchedule 5 1 [2, 3, 4, 5] ∧
    GoodSchedule 5 1 [2, 4, 5] := by
  exact ⟨by decide, by decide +kernel, by simp [GoodSchedule], by simp [GoodSchedule]⟩

/-- NoInverseWhenCoefficientSumVanishes: g modulo 3, and 1 + x modulo 2. -/
theorem witness_sums :
    let s := start g [1, 1, 0, 0, 0, 0, 0, 0, 0, 0, 0]
    s.params.Legal ∧ (s.params.p : Int) ∣ ∑ i ∈ Finset.range s.params.n, coef (s.reg 0) i ∧
      (2 : Int) ∣ ∑ i ∈ Finset.range s.params.n, coef (s.reg 1) i :=
  ⟨witness_legal, by decide +kernel, by decide +kernel⟩

end Sys2Proof.Tests
end

section
/-! The control state, the registers and the tags of an NRE (10_state.md): what a step leaves in each of them, and what the
control and status registers read. -/

namespace Sys2Proof.Machine

/-! ## Everything a step can do, as one case analysis -/

/-- The state with the event just taken off the stream and the port's response beside it; nothing else moves. -/
def State.advance (s : State) (rest : List Event) (p : Option Response) : State := { s with stream := rest, resp := p }

@[simp] theorem params_advance (s : State) (l : List Event) (p : Option Response) : (s.advance l p).params = s.params := rfl
@[simp] theorem reg_advance (s : State) (l : List Event) (p : Option Response) (r : Reg) :
    (s.advance l p).reg r = s.reg r := rfl
@[simp] theorem tag_advance (s : State) (l : List Event) (p : Option Response) (r : Reg) :
    (s.advance l p).tag r = s.tag r := rfl
@[simp] theorem ie_advance (s : State) (l : List Event) (p : Option Response) : (s.advance l p).ie = s.ie := rfl
@[simp] theorem busy_advance (s : State) (l : List Event) (p : Option Response) : (s.advance l p).busy = s.busy := rfl
@[simp] theorem done_advance (s : State) (l : List Event) (p : Option Response) : (s.advance l p).done = s.done := rfl
@[simp] theorem err_advance (s : State) (l : List Event) (p : Option Response) : (s.advance l p).err = s.err := rfl
@[simp] theorem cmd_advance (s : State) (l : List Event) (p : Option Response) : (s.advance l p).cmd = s.cmd := rfl

/-- If the completion writes a register, it is the destination of the command in CMD, and the value is reduced
(40_command.md R113, 41_ring_arithmetic.md R130). -/
def Completion.FitsCommand (c : Completion) (s : State) : Prop :=
  ∀ d m v, c = .okWrite d m v → ∃ i rep a, decode s.cmd = .ok i ∧ destOf i = some d ∧
    v = reducePoly s.params.n a (modsel s.params m) rep

/-- The ways a state can follow another: one constructor for each effect, with the events that have it. -/
inductive StepEffect (s : State) : State → Prop where
  /-- The completion step of the command in flight (40_command.md R113). -/
  | completion (c : Completion) (hturn : s.EngineNext) (hbusy : s.busy = true) (hfit : c.FitsCommand s) :
      StepEffect s (complete c s.turn)
  /-- An idle turn of the engine, a read, or a refused write. -/
  | quiet (rest : List Event) (p : Option Response) : StepEffect s (s.advance rest p)
  /-- A write to CTRL (10_state.md R46). -/
  | ctrl (v : Word) (rest : List Event) (p : Option Response) (hev : s.stream = .host (.write 0x014 0b1111 v) :: rest) :
      StepEffect s (writeCtrl v (s.advance rest p))
  /-- A write to STATUS (R48). -/
  | status (v : Word) (rest : List Event) (p : Option Response) (hev : s.stream = .host (.write 0x018 0b1111 v) :: rest) :
      StepEffect s (writeStatus v (s.advance rest p))
  /-- An accepted write to CMD (R49, 40_command.md R111). -/
  | accept (v : Word) (rest : List Event) (p : Option Response) (hidle : s.busy = false)
      (hev : s.stream = .host (.write 0x01C 0b1111 v) :: rest) : StepEffect s (acceptCommand v (s.advance rest p))
  /-- A coefficient write to an idle NRE (20_memory.md R66). -/
  | coef (r : Reg) (i : Nat) (v : Word) (rest : List Event) (p : Option Response) (hidle : s.busy = false)
      (hi : i < s.params.n) (hev : s.stream = .host (.write (windowAddr r i) 0b1111 v) :: rest) :
      StepEffect s (writeCoef r i v (s.advance rest p))
  /-- Reset (70_reset_and_hazards.md R190). -/
  | reset (rest : List Event) (hev : s.stream = .reset :: rest) :
      StepEffect s ((State.resetWith s.params).advance rest none)

/-- The completion step of the word in CMD writes at most the command's destination, reduced. -/
theorem runCommand_fits (s : State) : ∃ c, runCommand s = .next (complete c s) ∧ c.FitsCommand s := by
  obtain ⟨c, hrun, hc⟩ := runCommand_cases s
  refine ⟨c, hrun, fun d m v hw => ?_⟩
  obtain ⟨e, -, rfl⟩ | ⟨-, rfl⟩ | ⟨i, d', m', rep, a, hdec, hdest, rfl⟩ | ⟨i, d', -, -, rfl⟩ := hc
  · cases hw
  · cases hw
  · cases hw
    exact ⟨i, rep, a, hdec, hdest, rfl⟩
  · cases hw

/-- One transaction has one of the effects of a step. -/
theorem transact_effect {s : State} {x : Txn} {rest : List Event} (h : s.stream = .host x :: rest) :
    StepEffect s (transact x { s with stream := rest }) := by
  cases x with
  | read a => exact .quiet rest _
  | write a strb v =>
    simp only [transact]
    obtain e | ⟨rfl, rfl, e⟩ | ⟨rfl, rfl, e⟩ | ⟨rfl, rfl, hidle, e⟩ | ⟨r, i, hi, -, rfl, rfl, hidle, e⟩ :=
      memWrite_cases { s with stream := rest } a strb v <;> rw [e]
    · exact .quiet rest (some (.write true))
    · exact .ctrl v rest (some (.write false)) h
    · exact .status v rest (some (.write false)) h
    · exact .accept v rest (some (.write false)) hidle h
    · exact .coef (s := s) r i v rest (some (.write false)) hidle hi h

/-- A step has one of the effects of `StepEffect`. -/
theorem stepEffect_of_step {s t : State} (h : step s = .next t) : StepEffect s t := by
  obtain ⟨hturn, hbusy, e⟩ | ⟨-, -, e⟩ | ⟨x, rest, hev, e⟩ | ⟨rest, hev, e⟩ := step_cases s
  · obtain ⟨c, hrun, hfit⟩ := runCommand_fits s.turn
    rw [e, hrun] at h
    cases h
    exact .completion c hturn hbusy hfit
  · rw [e] at h
    cases h
    exact .quiet s.stream.tail none
  · rw [e] at h
    cases h
    exact transact_effect hev
  · rw [e] at h
    cases h
    exact .reset rest hev

/-- A completion changes a register or a tag only by writing it. -/
theorem okWrite_of_complete_changes {c : Completion} {s : State} {r : Reg}
    (h : (complete c s).reg r ≠ s.reg r ∨ (complete c s).tag r ≠ s.tag r) : ∃ m v, c = .okWrite r m v := by
  cases c with
  | okWrite d m v =>
    by_cases hr : r = d
    · exact ⟨m, v, hr ▸ rfl⟩
    · simp [reg_complete_okWrite, tag_complete_okWrite, hr] at h
  | okNothing => simp at h
  | illegal => simp at h
  | noinv => simp at h

/-! ## The invariants -/

/-- Settles O16: each effect of a step keeps the invariant; a completion does because what it writes is reduced. -/
theorem stepKeepsInvariant : Obligations.StepKeepsInvariant := by
  intro s t hinv hstep
  have hadv (l p) : (s.advance l p).Inv := inv_of_same hinv rfl (fun _ => rfl) hinv.busyDone
  cases stepEffect_of_step hstep with
  | completion c _ _ hfit =>
    refine inv_complete (hadv s.stream.tail none) c fun d m v hw => ?_
    obtain ⟨i, rep, a, -, -, rfl⟩ := hfit d m v hw
    exact reducePoly_inForm hinv.legal a m rep
  | quiet rest p => exact hadv rest p
  | ctrl v rest p _ => exact inv_of_same hinv rfl (fun _ => rfl) hinv.busyDone
  | status v rest p _ =>
    refine inv_of_same hinv rfl (fun _ => rfl) fun ⟨hb, hd⟩ => hinv.busyDone ⟨hb, ?_⟩
    exact (Bool.and_eq_true _ _ ▸ hd).1
  | accept v rest p _ _ => exact inv_of_same hinv rfl (fun _ => rfl) (by simp)
  | coef r i v rest p _ _ _ => exact inv_writeCoef (hadv rest p) r i v
  | reset rest _ => exact inv_of_same (inv_resetWith hinv.legal) rfl (fun _ => rfl) (by simp)

theorem raw_ne_tagOf (m : MSel) : Tag.raw ≠ tagOf m := by cases m <;> decide

theorem tagOf_injective : Function.Injective tagOf := by
  intro m m' h
  cases m <;> cases m' <;> trivial

/-- Updates that touch neither the parameters nor a register nor a tag keep the tags truthful. -/
theorem tagsTruthful_of_same {s t : State} (h : s.TagsTruthful) (hp : t.params = s.params) (hr : SameRegs s t) :
    t.TagsTruthful := by
  intro r m htag
  rw [(hr r).2] at htag
  rw [hp, (hr r).1]
  exact h r m htag

theorem tagsTruthful_complete {s : State} (h : s.TagsTruthful) (hl : s.params.Legal) {c : Completion}
    (hfit : c.FitsCommand s) : (complete c s).TagsTruthful := by
  intro r m htag
  by_cases hsame : (complete c s).reg r = s.reg r ∧ (complete c s).tag r = s.tag r
  · rw [hsame.2] at htag
    rw [hsame.1, params_complete]
    exact h r m htag
  · obtain ⟨m', v, rfl⟩ := okWrite_of_complete_changes (not_and_or.mp hsame)
    obtain ⟨i, rep, a, -, -, rfl⟩ := hfit r m' v rfl
    rw [tag_complete_okWrite, if_pos rfl] at htag
    obtain rfl := tagOf_injective htag
    have hm := (modsel_bounds hl m').1
    refine ⟨rep, fun j hj => ?_⟩
    rw [params_complete] at hj ⊢
    rw [reg_complete_okWrite, if_pos rfl, coef_reducePoly _ _ _ hj]
    exact reduce_canonical _ rep (by omega)

theorem tagsTruthful_writeCoef {s : State} (h : s.TagsTruthful) (r : Reg) (i : Nat) (v : Word) :
    (writeCoef r i v s).TagsTruthful := by
  intro r' m htag
  rw [tag_writeCoef] at htag
  rw [reg_writeCoef]
  split_ifs at htag with hr
  · exact absurd htag (raw_ne_tagOf m)
  · rw [if_neg hr]
    exact h r' m htag

theorem tagsTruthful_resetWith (c : Params) : (State.resetWith c).TagsTruthful := by
  intro r m htag
  rw [tag_resetWith] at htag
  exact absurd htag (raw_ne_tagOf m)

/-- Settles O17: a completion tags what it has reduced, a host write and reset leave the tag RAW, and nothing else touches a
register or a tag. -/
theorem stepKeepsTagsTruthful : Obligations.StepKeepsTagsTruthful := by
  intro s t hinv htruth hstep
  have hsame (u : State) (hp : u.params = s.params) (hr : SameRegs s u) : u.TagsTruthful :=
    tagsTruthful_of_same htruth hp hr
  cases stepEffect_of_step hstep with
  | completion c _ _ hfit =>
    exact tagsTruthful_complete (hsame s.turn rfl fun _ => ⟨rfl, rfl⟩) hinv.legal hfit
  | quiet rest p => exact hsame _ rfl fun _ => ⟨rfl, rfl⟩
  | ctrl v rest p _ => exact hsame _ rfl fun _ => ⟨rfl, rfl⟩
  | status v rest p _ => exact hsame _ rfl fun _ => ⟨rfl, rfl⟩
  | accept v rest p _ _ => exact hsame _ rfl fun _ => ⟨rfl, rfl⟩
  | coef r i v rest p _ _ _ => exact tagsTruthful_writeCoef (hsame (s.advance rest p) rfl fun _ => ⟨rfl, rfl⟩) r i v
  | reset rest _ => exact tagsTruthful_of_same (tagsTruthful_resetWith s.params) rfl fun _ => ⟨rfl, rfl⟩

/-! ## What may change what -/

/-- Settles O37: of the effects of a step only completion, coefficient write and reset touch a register or a tag. -/
theorem registersChangeOnlyByHostOrCompletion : Obligations.RegistersChangeOnlyByHostOrCompletion := by
  intro s t r hstep hchange
  cases stepEffect_of_step hstep with
  | completion c hturn hbusy hfit =>
    obtain ⟨m, v, rfl⟩ := okWrite_of_complete_changes hchange
    obtain ⟨i, -, -, hdec, hdest, -⟩ := hfit r m v rfl
    exact .inr (.inl ⟨hbusy, hturn, rfl, i, hdec, hdest⟩)
  | coef r' i v rest p hidle hi hev =>
    by_cases hr : r = r'
    · subst hr
      exact .inl ⟨i, v, rest, hev, hidle, hi, by simp [tag_writeCoef]⟩
    · simp [reg_writeCoef, tag_writeCoef, hr] at hchange
  | reset rest hev => exact .inr (.inr ⟨rest, hev⟩)
  | quiet rest p => simp at hchange
  | ctrl v rest p _ => simp at hchange
  | status v rest p _ => simp at hchange
  | accept v rest p _ _ => simp at hchange

/-- Settles O38, by the effects of a step. -/
theorem controlStateChangesOnlyAsStated : Obligations.ControlStateChangesOnlyAsStated := by
  intro s t hstep hreset
  cases stepEffect_of_step hstep with
  | completion c hturn hbusy _ => simp [hturn, hbusy]
  | quiet rest p => simp +contextual
  | ctrl v rest p hev => simp +contextual [hev]
  | status v rest p hev => simp +contextual [hev]
  | accept v rest p hidle hev => simp [hidle, hev]
  | coef r i v rest p hidle _ _ => simp +contextual [hidle]
  | reset rest hev => exact absurd hev (hreset rest)

/-! ## The control, status and configuration registers -/

/-- A field above a number that fits below it adds to it. -/
theorem toNat_or_shiftLeft {x y : Word} {k : Nat} (hx : x.toNat < 2 ^ k) (hy : 2 ^ k * y.toNat < 2 ^ 32) :
    (x ||| y <<< k).toNat = x.toNat + 2 ^ k * y.toNat := by
  rw [BitVec.toNat_or, BitVec.toNat_shiftLeft, Nat.shiftLeft_eq, Nat.mul_comm, Nat.mod_eq_of_lt hy, Nat.or_comm,
    ← Nat.two_pow_add_eq_or_of_lt hx, Nat.add_comm]

/-- The addresses of the read-only registers are below the windows and are none of the writable registers. -/
theorem readOnlyAddrs_low_not_writable : ∀ a ∈ readOnlyAddrs, a.toNat < 0x1000 ∧ a ≠ 0x014 ∧ a ≠ 0x018 ∧ a ≠ 0x01C := by
  simp [readOnlyAddrs]

/-- A read-only register refuses every write (10_state.md R51). -/
theorem memWrite_readOnly {a : Addr} (h : a ∈ readOnlyAddrs) (s : State) (strb : Strobes) (v : Word) :
    memWrite s a strb v = (s, true) := by
  obtain ⟨hlow, hctrl, hstatus, hcmd⟩ := readOnlyAddrs_low_not_writable a h
  obtain e | ⟨ha, -, -⟩ | ⟨ha, -, -⟩ | ⟨ha, -, -, -⟩ | ⟨r, i, -, hi, rfl, -, -, -⟩ := memWrite_cases s a strb v
  · exact e
  · exact absurd ha hctrl
  · exact absurd ha hstatus
  · exact absurd ha hcmd
  · rw [windowAddr_toNat r hi] at hlow
    omega

/-- Settles O18: ID is a read-only register, so the rule for them all refuses the write. -/
theorem idRegisterReads : Obligations.IdRegisterReads := fun s =>
  ⟨memRead_id s, memWrite_readOnly (by decide) s⟩

/-- Settles O24: a write has no effect at these addresses, and a read has its register's value at each. -/
theorem readOnlyRegistersRefuseWrites : Obligations.ReadOnlyRegistersRefuseWrites := by
  intro s a ha
  refine ⟨memWrite_readOnly ha s, ?_⟩
  simp only [readOnlyAddrs, List.mem_cons, List.not_mem_nil, or_false] at ha
  obtain rfl | rfl | rfl | rfl | rfl | rfl := ha <;> simp

/-- Q fits the 32-bit word (00_scope.md R8). -/
theorem q_lt_two_pow {c : Params} (h : c.Legal) : c.q < 2 ^ 32 := by
  have hcw := h.cw_le
  calc c.q ≤ 2 ^ (c.cw - 1) := h.q_le
    _ < 2 ^ 32 := Nat.pow_lt_pow_right (by norm_num) (by omega)

theorem cfgNWord_toNat {c : Params} (h : c.Legal) : (cfgNWord c).toNat = c.n := by
  have := h.n_le
  simp only [cfgNWord, BitVec.toNat_ofNat]
  omega

theorem cfgPWord_toNat {c : Params} (h : c.Legal) : (cfgPWord c).toNat = c.p :=
  Nat.mod_eq_of_lt (h.p_lt_q.trans (q_lt_two_pow h))

theorem cfgQWord_toNat {c : Params} (h : c.Legal) : (cfgQWord c).toNat = c.q :=
  Nat.mod_eq_of_lt (q_lt_two_pow h)

theorem cfgWWord_toNat {c : Params} (h : c.Legal) : (cfgWWord c).toNat = c.cw + 8 * 2 ^ 8 := by
  have hcw := h.cw_le
  have hlow : (BitVec.ofNat 32 (c.cw % 2 ^ 6)).toNat = c.cw := by
    rw [BitVec.toNat_ofNat]
    omega
  rw [cfgWWord, toNat_or_shiftLeft (by omega) (by decide), hlow]
  rfl

/-- Settles O19: a legal parameter fits its field, so the word is the parameter. -/
theorem configRegistersReadParameters : Obligations.ConfigRegistersReadParameters := by
  intro s hl
  refine ⟨⟨_, memRead_cfgN s, cfgNWord_toNat hl⟩, ⟨_, memRead_cfgP s, cfgPWord_toNat hl⟩,
    ⟨_, memRead_cfgQ s, cfgQWord_toNat hl⟩, ⟨_, memRead_cfgW s, cfgWWord_toNat hl⟩, fun a ha strb v => ?_⟩
  have hsub : [(0x004 : Addr), 0x008, 0x00C, 0x010] ⊆ readOnlyAddrs := by decide
  exact memWrite_readOnly (hsub ha) s strb v

theorem toNat_bitWord (b : Bool) : (BitVec.ofNat 32 (bit b)).toNat = bit b := by cases b <;> rfl

theorem bit_le_one (b : Bool) : bit b ≤ 1 := by cases b <;> decide

theorem Code.value_le_two (c : Code) : c.value ≤ 2 := by cases c <;> decide

theorem statusWord_toNat (s : State) : (statusWord s).toNat = bit s.busy + 2 * bit s.done + 16 * s.err.value := by
  have hb := bit_le_one s.busy
  have hd := bit_le_one s.done
  have he := s.err.value_le_two
  have herr : (BitVec.ofNat 32 s.err.value).toNat = s.err.value := Nat.mod_eq_of_lt (by omega)
  have hlow : (BitVec.ofNat 32 (bit s.busy) ||| BitVec.ofNat 32 (bit s.done) <<< 1).toNat = bit s.busy + 2 * bit s.done := by
    rw [toNat_or_shiftLeft] <;> simp only [toNat_bitWord] <;> omega
  rw [statusWord, toNat_or_shiftLeft (by omega) (by omega), hlow, herr]
  omega

/-- Settles O20: STATUS is the sum of its fields, and ERR is at most 2. -/
theorem statusRegisterReads : Obligations.StatusRegisterReads := by
  intro s
  have hb := bit_le_one s.busy
  have hd := bit_le_one s.done
  have he := s.err.value_le_two
  refine ⟨_, memRead_status s, ?_, ?_⟩
  · rw [statusWord_toNat]
    cases s.busy <;> cases s.done <;> rfl
  · rw [bitField_eq, statusWord_toNat]
    omega

/-- The word of a flag is bit 0 of the word that the flag was taken from. -/
theorem ofNat_bit_getLsbD_zero (v : Word) : BitVec.ofNat 32 (bit (v.getLsbD 0)) = v &&& 1 := by
  rw [show v &&& 1 = v &&& 1#32 from rfl, BitVec.and_one_eq_setWidth_ofBool_getLsbD]
  cases v.getLsbD 0 <;> rfl

/-- Settles O21: CTRL is the word of IE, and IE is bit 0 of the word written. -/
theorem ctrlWriteSetsInterruptEnable : Obligations.CtrlWriteSetsInterruptEnable := by
  refine ⟨fun s v => ⟨?_, memWrite_ctrl s v, ?_⟩, fun c => ie_resetWith c⟩
  · rw [memRead_ctrl, ctrlWord]
    cases s.ie <;> rfl
  · rw [memWrite_ctrl, memRead_ctrl, ctrlWord, ie_writeCtrl, ofNat_bit_getLsbD_zero]

/-- Settles O22, by the value of bit 1 of the word written. -/
theorem statusWriteClearsDone : Obligations.StatusWriteClearsDone := by
  intro s v
  rw [memWrite_status, writeStatus]
  cases v.getLsbD 1 <;> simp

theorem Tag.value_le_two (t : Tag) : t.value ≤ 2 := by cases t <;> decide

/-- The tags as the digits of a number in base 4. -/
def tagsNumber (s : State) : Nat := ∑ r : Reg, (s.tag r).value * 4 ^ r.val

theorem tagsNumber_lt (s : State) : tagsNumber s < 2 ^ 16 :=
  calc tagsNumber s ≤ ∑ r : Reg, 2 * 4 ^ r.val :=
        Finset.sum_le_sum fun r _ => Nat.mul_le_mul_right _ (s.tag r).value_le_two
    _ < 2 ^ 16 := by decide

theorem tagsNumber_digit (s : State) (r : Reg) : tagsNumber s / 2 ^ (2 * r.val) % 2 ^ 2 = (s.tag r).value := by
  have h (r : Reg) := (s.tag r).value_le_two
  have := h 0; have := h 1; have := h 2; have := h 3; have := h 4; have := h 5; have := h 6; have := h 7
  rw [tagsNumber, Fin.sum_univ_eight]
  fin_cases r <;> simp <;> omega

theorem tagsWord_toNat (s : State) : (tagsWord s).toNat = tagsNumber s := by
  have hlist : ((List.range 8).map fun r => (s.tags[r]?.getD .raw).value * 4 ^ r).sum = tagsNumber s := by
    simp [tagsNumber, Fin.sum_univ_eight, List.range_succ, State.tag, Nat.add_assoc]
  rw [tagsWord, hlist]
  exact Nat.mod_eq_of_lt ((tagsNumber_lt s).trans (by norm_num))

theorem bitField_tagsWord (s : State) (r : Reg) : bitField (tagsWord s) (2 * r.val) 2 = (s.tag r).value := by
  rw [bitField_eq, tagsWord_toNat, tagsNumber_digit]

theorem bitField_tagsWord_high (s : State) : bitField (tagsWord s) 16 16 = 0 := by
  rw [bitField_eq, tagsWord_toNat, Nat.div_eq_of_lt (tagsNumber_lt s), Nat.zero_mod]

theorem tagsWord_resetWith (c : Params) : tagsWord (State.resetWith c) = 0 := by
  refine BitVec.eq_of_toNat_eq ?_
  simp [tagsWord_toNat, tagsNumber, Tag.value]

/-- TAGS depends on the tags alone. -/
theorem tagsWord_congr {s t : State} (h : t.tags = s.tags) : tagsWord t = tagsWord s := by
  rw [tagsWord, tagsWord, h]

/-- While a command stays in flight no step moves a tag (10_state.md R50). -/
theorem tags_of_stays_busy {s t : State} (hstep : step s = .next t) (hs : s.busy = true) (ht : t.busy = true) :
    t.tags = s.tags := by
  cases stepEffect_of_step hstep with
  | completion c _ _ _ => simp at ht
  | coef r i v rest p hidle _ _ => simp [hs] at hidle
  | reset rest _ => simp at ht
  | quiet rest p => rfl
  | ctrl v rest p _ => rfl
  | status v rest p _ => rfl
  | accept v rest p _ _ => rfl

/-- Settles O23: each tag is a base 4 digit of TAGS, and between two busy states no step moves a tag. -/
theorem tagsRegisterReads : Obligations.TagsRegisterReads := by
  refine ⟨fun s => ⟨⟨_, memRead_tags s, bitField_tagsWord s, bitField_tagsWord_high s⟩, memWrite_readOnly (by decide) s,
    fun t hstep hs ht => ?_⟩, fun c => ?_⟩
  · rw [memRead_tags, memRead_tags, tagsWord_congr (tags_of_stays_busy hstep hs ht)]
  · rw [memRead_tags, tagsWord_resetWith]

/-- Settles O27; that only an accepted write changes CMD is a clause of O38. -/
theorem cmdReadsLastAcceptedWord : Obligations.CmdReadsLastAcceptedWord := by
  refine ⟨fun s v => ⟨memRead_cmd s, fun hidle => ⟨acceptCommand v s, ?_, rfl, rfl⟩, fun hbusy => ?_⟩,
    fun s t hstep hne => or_iff_not_imp_left.mpr fun hreset => ?_, fun c => rfl⟩
  · rw [memWrite_cmd, hidle]
    rfl
  · rw [memWrite_cmd, if_pos hbusy]
  · obtain ⟨-, -, -, hcmd, -⟩ := controlStateChangesOnlyAsStated s t hstep (not_exists.mp hreset)
    exact hcmd hne

end Sys2Proof.Machine
end

section
/-! The memory view of an NRE (20_memory.md): the byte lanes of a word, the address map, what the port refuses and what a
coefficient access does, and what the port leaves alone while a command is in flight. -/

namespace Sys2Proof.Machine

/-! ## Byte lanes (R68) -/

theorem byteLane_toNat (w : Word) (k : Nat) : (byteLane w k).toNat = w.toNat / 256 ^ k % 256 := by
  rw [byteLane, BitVec.extractLsb'_toNat, Nat.shiftRight_eq_div_pow, pow_mul]
  rfl

/-- The lanes, lane 0 first, are the bytes of the word. -/
theorem wordOfBytes_bytesOfWord (w : Word) : wordOfBytes (bytesOfWord w) = some w := by
  simp only [wordOfBytes, bytesOfWord, byteLane, Option.some.injEq]
  rw [BitVec.extractLsb'_append_extractLsb'_eq_extractLsb' (show 8 * 3 = 8 * 2 + 8 from rfl),
    BitVec.extractLsb'_append_extractLsb'_eq_extractLsb' (show 8 * 2 = 8 * 1 + 8 from rfl),
    BitVec.extractLsb'_append_extractLsb'_eq_extractLsb' (show 8 * 1 = 8 * 0 + 8 from rfl)]
  exact BitVec.extractLsb'_eq_self

/-- The lowest lane of bytes put together is the last of them. -/
theorem lane_zero_append {n : Nat} (x : BitVec n) (b : Byte) : (x ++ b).extractLsb' (8 * 0) 8 = b :=
  (BitVec.extractLsb'_append_eq_of_add_le (by decide)).trans BitVec.extractLsb'_eq_self

/-- The lanes above it are those of the bytes before. -/
theorem lane_succ_append {n : Nat} (x : BitVec n) (b : Byte) (k : Nat) :
    (x ++ b).extractLsb' (8 * (k + 1)) 8 = x.extractLsb' (8 * k) 8 :=
  BitVec.extractLsb'_append_eq_of_le (Nat.le_add_left 8 (8 * k))

theorem bytesOfWord_append (b0 b1 b2 b3 : Byte) : bytesOfWord (b3 ++ b2 ++ b1 ++ b0) = [b0, b1, b2, b3] := by
  have h0 : byteLane (b3 ++ b2 ++ b1 ++ b0) 0 = b0 := lane_zero_append _ b0
  have h1 : byteLane (b3 ++ b2 ++ b1 ++ b0) 1 = b1 :=
    (lane_succ_append _ b0 0).trans (lane_zero_append _ b1)
  have h2 : byteLane (b3 ++ b2 ++ b1 ++ b0) 2 = b2 :=
    ((lane_succ_append _ b0 1).trans (lane_succ_append _ b1 0)).trans (lane_zero_append b3 b2)
  have h3 : byteLane (b3 ++ b2 ++ b1 ++ b0) 3 = b3 :=
    (((lane_succ_append _ b0 2).trans (lane_succ_append _ b1 1)).trans (lane_succ_append b3 b2 0)).trans
      BitVec.extractLsb'_eq_self
  rw [bytesOfWord, h0, h1, h2, h3]

/-- Settles O6: cutting a word into its lanes and appending the lanes undo each other. -/
theorem byteLanesAreLittleEndian : Obligations.ByteLanesAreLittleEndian := fun w =>
  ⟨fun k _ => byteLane_toNat w k, wordOfBytes_bytesOfWord w, fun b0 b1 b2 b3 => ⟨_, rfl, bytesOfWord_append b0 b1 b2 b3⟩⟩

/-! ## The address map (R63) -/

/-- The registers of 10_state.md R40, word by word. -/
theorem csrTarget_word : ∀ k < 9,
    [Target.id, .cfgN, .cfgP, .cfgQ, .cfgW, .ctrl, .status, .cmd, .tags][k]? = some (csrTarget (4 * k)) := by
  decide

/-- Every word of the windows has the address of the formula, with the register and index its bits name. -/
theorem eq_windowAddr_of_inWindow {a : Addr} (ha : a.toNat % 4 = 0) (hw : InWindow a) :
    a = windowAddr (Fin.ofNat 8 ((a.toNat - 0x1000) / 2 ^ 10)) ((a.toNat - 0x1000) / 2 ^ 2 % 256) := by
  obtain ⟨hlo, hhi⟩ := hw
  refine BitVec.eq_of_toNat_eq ?_
  rw [windowAddr_toNat _ (Nat.mod_lt _ (by decide)), Fin.val_ofNat]
  omega

theorem aligned_iff {a : Addr} : aligned a = true ↔ a.toNat % 4 = 0 := beq_iff_eq

/-- Settles O29, range by range; the windows by the formula for their addresses. -/
theorem windowAddressMap : Obligations.WindowAddressMap := by
  refine ⟨fun n r i hi => ⟨windowAddr_toNat r hi, target_windowAddr n r hi⟩, fun n a ha => ⟨fun hcsr => ?_, fun hlo hhi => ?_,
    fun hlo hhi => ?_, fun htop => ?_⟩⟩
  · rw [target_csr (by omega), csrTarget_word _ (by omega), Nat.mul_div_cancel' (Nat.dvd_of_mod_eq_zero ha)]
  · exact (target_unmapped_iff (aligned_iff.mpr ha)).mpr (.inl ⟨hlo, hhi⟩)
  · exact ⟨_, _, Nat.mod_lt _ (by decide), eq_windowAddr_of_inWindow ha ⟨hlo, hhi⟩, rfl, rfl⟩
  · exact (target_unmapped_iff (aligned_iff.mpr ha)).mpr (.inr (.inr htop))

/-! ## What the port refuses (R64, R65, R70) -/

/-- The causes of an error response to a read (60_exceptions.md R177). -/
inductive ReadRefused (s : State) (a : Addr) : Prop where
  /-- Not word-aligned (R65). -/
  | misaligned (h : a.toNat % 4 ≠ 0)
  /-- No register and no coefficient (R64). -/
  | unmapped (h : Unmapped s.params.n a)
  /-- A coefficient window while a command is in flight (R70). -/
  | busyWindow (hw : InWindow a) (hb : s.busy = true)

/-- The causes of an error response to a write (60_exceptions.md R177). -/
inductive WriteRefused (s : State) (a : Addr) (strb : Strobes) : Prop where
  /-- A cause that refuses a read as well. -/
  | asRead (h : ReadRefused s a)
  /-- A byte strobe is missing (R65). -/
  | strobes (h : strb ≠ 0b1111)
  /-- A read-only register (10_state.md R51). -/
  | readOnly (h : a ∈ readOnlyAddrs)
  /-- CMD while a command is in flight (40_command.md R112). -/
  | busyCmd (ha : a = 0x01C) (hb : s.busy = true)

theorem memRead_unmapped {s : State} {a : Addr} (h : Unmapped s.params.n a) : memRead s a = (0x00000000, true) := by
  cases ha : aligned a
  · exact memRead_unaligned ha
  · simp only [memRead, ha, if_true, (target_unmapped_iff ha).mpr h, readError]

theorem memRead_of_refused {s : State} {a : Addr} (h : ReadRefused s a) : memRead s a = (0x00000000, true) := by
  by_cases ha : a.toNat % 4 = 0
  · cases h with
    | misaligned h => exact absurd ha h
    | unmapped h => exact memRead_unmapped h
    | busyWindow hw hb =>
      have hi : (a.toNat - 0x1000) / 2 ^ 2 % 256 < 256 := Nat.mod_lt _ (by decide)
      by_cases hu : Unmapped s.params.n a
      · exact memRead_unmapped hu
      · have hn : (a.toNat - 0x1000) / 2 ^ 2 % 256 < s.params.n := by
          obtain ⟨hlo, hhi⟩ := hw
          simp only [Unmapped, not_or, not_and, not_le] at hu
          obtain ⟨-, hmapped, -⟩ := hu
          have := hmapped hlo hhi
          omega
        rw [eq_windowAddr_of_inWindow ha hw, memRead_window _ hi hn, if_pos hb]
  · exact memRead_unaligned (by simpa [aligned] using ha)

theorem not_readRefused_csr {s : State} {a : Addr} (ha : a.toNat % 4 = 0) (hlow : a.toNat < 0x0024) : ¬ReadRefused s a := by
  rintro (hmis | hu | ⟨⟨hlo, -⟩, -⟩)
  · exact hmis ha
  · rw [Unmapped] at hu
    omega
  · omega

theorem not_readRefused_windowAddr {s : State} (r : Reg) {i : Nat} (hi : i < 256) (hn : i < s.params.n)
    (hb : s.busy = false) : ¬ReadRefused s (windowAddr r i) := by
  have hr := r.isLt
  have h := windowAddr_toNat r hi
  rintro (hmis | hu | ⟨-, hb'⟩)
  · omega
  · rw [Unmapped] at hu
    omega
  · simp [hb] at hb'

theorem not_writeRefused {s : State} {a : Addr} (hr : ¬ReadRefused s a) (hro : a ∉ readOnlyAddrs)
    (hcmd : a = 0x01C → s.busy = false) : ¬WriteRefused s a 0b1111 := by
  rintro (h | h | h | ⟨ha, hb⟩)
  · exact hr h
  · exact h rfl
  · exact hro h
  · simp [hcmd ha] at hb

/-- A write with a cause to refuse it is none of the writes that have an effect. -/
theorem memWrite_of_refused {s : State} {a : Addr} {strb : Strobes} (h : WriteRefused s a strb) (v : Word) :
    memWrite s a strb v = (s, true) := by
  obtain e | ⟨rfl, rfl, -⟩ | ⟨rfl, rfl, -⟩ | ⟨rfl, rfl, hb, -⟩ | ⟨r, i, hn, hi, rfl, rfl, hb, -⟩ := memWrite_cases s a strb v
  · exact e
  · exact absurd h (not_writeRefused (not_readRefused_csr rfl (by decide)) (by decide) (fun e => absurd e (by decide)))
  · exact absurd h (not_writeRefused (not_readRefused_csr rfl (by decide)) (by decide) (fun e => absurd e (by decide)))
  · exact absurd h (not_writeRefused (not_readRefused_csr rfl (by decide)) (by decide) fun _ => hb)
  · refine absurd h (not_writeRefused (not_readRefused_windowAddr r hi hn hb) (fun hro => ?_) fun _ => hb)
    have hlow := (readOnlyAddrs_low_not_writable _ hro).1
    rw [windowAddr_toNat r hi] at hlow
    omega

/-- Settles O30: an unmapped offset is a cause of refusal for both kinds of access. -/
theorem unmappedAccessesRefused : Obligations.UnmappedAccessesRefused := fun _ _ _ v hu =>
  ⟨memRead_of_refused (.unmapped hu), memWrite_of_refused (.asRead (.unmapped hu)) v⟩

/-- Settles O31: misalignment is a cause of refusal for both kinds of access, a missing strobe for a write. -/
theorem misalignedOrPartialRefused : Obligations.MisalignedOrPartialRefused := by
  refine fun s a strb v => ⟨fun hmis => memRead_of_refused (.misaligned hmis), ?_⟩
  rintro (hmis | hstrb)
  · exact memWrite_of_refused (.asRead (.misaligned hmis)) v
  · exact memWrite_of_refused (.strobes hstrb) v

/-- Every control and status register is read without error. -/
theorem memRead_csr_ok (s : State) {a : Addr} (ha : a.toNat % 4 = 0) (hlow : a.toNat < 0x0024) : (memRead s a).2 = false := by
  obtain ⟨k, hk⟩ : ∃ k : Fin 9, a = BitVec.ofNat 14 (4 * k.val) :=
    ⟨⟨a.toNat / 4, by omega⟩, BitVec.eq_of_toNat_eq (by simp only [BitVec.toNat_ofNat]; omega)⟩
  rw [hk]
  fin_cases k <;> rfl

/-- Settles O32: BUSY is a cause of refusal in the windows, and below them only STATUS shows it. -/
theorem windowRefusedWhileBusy : Obligations.WindowRefusedWhileBusy := by
  refine fun s hb => ⟨fun a hw => ?_, fun a hlow ha => ⟨memRead_csr_ok s ha hlow, fun hstatus => ?_⟩, fun v => ?_⟩
  · exact ⟨memRead_of_refused (.busyWindow hw hb), fun strb v => memWrite_of_refused (.asRead (.busyWindow hw hb)) v⟩
  · exact memRead_low_congr (by omega) rfl rfl rfl (.inl hstatus) (.inr rfl)
  · rw [memWrite_ctrl, memWrite_status]
    exact ⟨rfl, rfl⟩

/-! ## Coefficient accesses (R66, R67) -/

/-- A coefficient's index fits the eight address bits (00_scope.md R5). -/
theorem State.Inv.index_lt {s : State} (h : s.Inv) {i : Nat} (hi : i < s.params.n) : i < 256 :=
  hi.trans_le h.legal.n_le

/-- The stored number is the written word modulo 2^CW. -/
theorem coefOfWord_dvd {c : Params} (h : c.Legal) (v : Word) : (2 ^ c.cw : Int) ∣ coefOfWord c v - v.toNat :=
  (sext_spec c.cw v.toNat (le_trans (by decide) h.three_le_cw)).2.2

theorem memWrite_window_idle {s : State} (r : Reg) {i : Nat} (v : Word) (hi : i < 256) (hn : i < s.params.n)
    (hidle : s.busy = false) : memWrite s (windowAddr r i) 0b1111 v = (writeCoef r i v s, false) := by
  rw [memWrite_window r v hi hn, hidle]
  rfl

/-- A coefficient write replaces the one coefficient. -/
theorem coef_writeCoef (r : Reg) {i : Nat} (v : Word) {s : State} (hi : i < (s.reg r).length) (j : Nat) :
    coef ((writeCoef r i v s).reg r) j = if j = i then coefOfWord s.params v else coef (s.reg r) j := by
  rw [reg_writeCoef, if_pos rfl, coef_set _ _ _ _ hi]

theorem length_writeCoef (r : Reg) (i : Nat) (v : Word) (s : State) :
    ((writeCoef r i v s).reg r).length = (s.reg r).length := by
  rw [reg_writeCoef, if_pos rfl, List.length_set]

theorem writeCoef_sameRegsBut (r : Reg) (i : Nat) (v : Word) (s : State) : SameRegsBut r s (writeCoef r i v s) := by
  intro r' hr
  rw [reg_writeCoef, tag_writeCoef, if_neg hr, if_neg hr]
  exact ⟨rfl, rfl⟩

/-- Settles O33: the write is `writeCoef`, which stores the sign-extended low CW bits. -/
theorem coefficientWriteStores : Obligations.CoefficientWriteStores := by
  intro s r i v hinv hn
  have hi : i < (s.reg r).length := hn.trans_eq (hinv.length r).symm
  have h256 := hinv.index_lt hn
  refine ⟨fun hidle => ⟨writeCoef r i v s, memWrite_window_idle r v h256 hn hidle, ?_, ?_, fun j hj => ?_, ?_, ?_,
    writeCoef_sameRegsBut r i v s, ⟨rfl, rfl, rfl, rfl, rfl⟩, rfl, rfl, rfl⟩, fun hb => ?_⟩
  · rw [coef_writeCoef r v hi, if_pos rfl]
    exact coefOfWord_inRange hinv.legal v
  · rw [coef_writeCoef r v hi, if_pos rfl]
    exact coefOfWord_dvd hinv.legal v
  · rw [coef_writeCoef r v hi, if_neg hj]
  · rw [length_writeCoef, hinv.length]
  · rw [tag_writeCoef, if_pos rfl]
  · rw [memWrite_window r v h256 hn, if_pos hb]

/-- Settles O34: a coefficient in the CW-bit range fits the word it is read as. -/
theorem coefficientReadSignExtends : Obligations.CoefficientReadSignExtends := by
  intro s r i hinv hn
  have hmem : coef (s.reg r) i ∈ s.reg r := coef_mem (hn.trans_eq (hinv.length r).symm)
  rw [memRead_window r (hinv.index_lt hn) hn]
  exact ⟨fun hidle => ⟨_, if_neg (by simp [hidle]), wordOfCoef_toInt hinv.legal (hinv.range r _ hmem)⟩, fun hb => if_pos hb⟩

/-! ## Repeated accesses (R69) -/

theorem writeStatus_writeStatus (v : Word) (s : State) : writeStatus v (writeStatus v s) = writeStatus v s := by
  simp only [writeStatus, Bool.and_assoc, Bool.and_self]

/-- What is stored does not depend on the coefficient it replaces. -/
theorem writeCoef_writeCoef (r : Reg) (i : Nat) (v : Word) (s : State) :
    writeCoef r i v (writeCoef r i v s) = writeCoef r i v s := by
  simp [writeCoef, State.setReg, State.setTag, State.reg]

/-- Every write that does not start a command is idempotent. -/
theorem memWrite_memWrite {a : Addr} (ha : a ≠ 0x01C) (s : State) (strb : Strobes) (v : Word) :
    memWrite (memWrite s a strb v).1 a strb v = memWrite s a strb v := by
  obtain e | ⟨rfl, rfl, e⟩ | ⟨rfl, rfl, e⟩ | ⟨hcmd, -, -, -⟩ | ⟨r, i, hn, hi, rfl, rfl, hidle, e⟩ := memWrite_cases s a strb v
  · rw [e]
    exact e
  · rfl
  · rw [e, memWrite_status, writeStatus_writeStatus]
  · exact absurd hcmd ha
  · have again := memWrite_window_idle (s := writeCoef r i v s) r v hi hn hidle
    rw [writeCoef_writeCoef] at again
    rw [e]
    exact again

/-- Settles O36: repeating a write that has one of its other effects changes nothing more, and an accepted command sets BUSY. -/
theorem onlyCommandWritesRepeatDifferently : Obligations.OnlyCommandWritesRepeatDifferently := by
  refine fun s a strb v => ⟨⟨_, rfl⟩, fun ha => memWrite_memWrite ha s strb v, fun r i hi hn hidle => ?_, fun hidle => ?_⟩
  · rw [memWrite_window_idle r v hi hn hidle, tag_writeCoef, if_pos rfl]
  · have haccept : memWrite s 0x01C 0b1111 v = (acceptCommand v s, false) := by
      rw [memWrite_cmd, hidle]
      rfl
    rw [haccept]
    exact ⟨rfl, rfl, memWrite_of_refused (.busyCmd rfl rfl) v⟩

/-! ## Transactions and idle turns (R60, R72) -/

/-- The port does not look at the events still to come. -/
theorem memWrite_withStream (s : State) (l : List Event) (a : Addr) (strb : Strobes) (v : Word) :
    memWrite { s with stream := l } a strb v = ({ (memWrite s a strb v).1 with stream := l }, (memWrite s a strb v).2) := by
  simp only [memWrite]
  split_ifs with hlegal hbusy
  · cases target s.params.n a <;> rfl
  · cases target s.params.n a <;> rfl
  · rfl

/-- Settles O10: a transaction is a step of its own, and an idle engine's turn is an idle step. -/
theorem stepOfTransactionsAndIdleTurns : Obligations.StepOfTransactionsAndIdleTurns := by
  refine fun s => ⟨fun a rest hev => step_host hev, fun a strb v rest hev => ?_, fun hidle hturn => step_turn_idle hturn hidle⟩
  rw [step_host hev, transact, memWrite_withStream]

/-! ## A command in flight (R70, R71, R73) -/

/-- What a command in flight reads and keeps while the host's transactions pass it: the parameters, the registers and their
tags, CMD, ERR, and BUSY itself (20_memory.md R70, 40_command.md R112). -/
structure SameFlight (s t : State) : Prop where
  params : t.params = s.params
  pr : t.pr = s.pr
  tags : t.tags = s.tags
  busy : t.busy = s.busy
  err : t.err = s.err
  cmd : t.cmd = s.cmd

theorem SameFlight.refl (s : State) : SameFlight s s := ⟨rfl, rfl, rfl, rfl, rfl, rfl⟩

theorem SameFlight.trans {s t u : State} (h : SameFlight s t) (h' : SameFlight t u) : SameFlight s u where
  params := h'.params.trans h.params
  pr := h'.pr.trans h.pr
  tags := h'.tags.trans h.tags
  busy := h'.busy.trans h.busy
  err := h'.err.trans h.err
  cmd := h'.cmd.trans h.cmd

/-- While BUSY = 1 a write can change CTRL.IE and STATUS.DONE alone. -/
theorem memWrite_busy_sameFlight {s : State} (hb : s.busy = true) (a : Addr) (strb : Strobes) (v : Word) :
    SameFlight s (memWrite s a strb v).1 := by
  obtain e | ⟨-, -, e⟩ | ⟨-, -, e⟩ | ⟨-, -, hidle, -⟩ | ⟨r, i, -, -, -, -, hidle, -⟩ := memWrite_cases s a strb v
  · rw [e]; exact .refl s
  · rw [e]; exact ⟨rfl, rfl, rfl, rfl, rfl, rfl⟩
  · rw [e]; exact ⟨rfl, rfl, rfl, rfl, rfl, rfl⟩
  · simp [hb] at hidle
  · simp [hb] at hidle

theorem transact_busy_sameFlight {s : State} (hb : s.busy = true) (x : Txn) : SameFlight s (transact x s) := by
  cases x with
  | read a => exact ⟨rfl, rfl, rfl, rfl, rfl, rfl⟩
  | write a strb v => exact (memWrite_busy_sameFlight hb a strb v).trans ⟨rfl, rfl, rfl, rfl, rfl, rfl⟩

@[simp] theorem stream_memWrite (s : State) (a : Addr) (strb : Strobes) (v : Word) :
    (memWrite s a strb v).1.stream = s.stream := by
  obtain e | ⟨-, -, e⟩ | ⟨-, -, e⟩ | ⟨-, -, -, e⟩ | ⟨r, i, -, -, -, -, -, e⟩ := memWrite_cases s a strb v <;> rw [e] <;> simp

@[simp] theorem stream_transact (x : Txn) (s : State) : (transact x s).stream = s.stream := by
  cases x with
  | read a => rfl
  | write a strb v => exact stream_memWrite s a strb v

/-- What a command completes with depends on the parameters and the registers alone (40_command.md R114). -/
theorem exec_completion_congr {s t : State} (hp : t.params = s.params) (hr : t.pr = s.pr) (i : Instr) :
    ∃ c, exec i s = .next (complete c s) ∧ exec i t = .next (complete c t) := by
  have hreg (r : Reg) : t.reg r = s.reg r := by simp only [State.reg, hr]
  cases i with
  | nop => exact ⟨_, rfl, rfl⟩
  | add m rep d a b => exact ⟨_, rfl, by rw [← hreg a, ← hreg b, ← hp]; rfl⟩
  | mul m rep d a b => exact ⟨_, rfl, by rw [← hreg a, ← hreg b, ← hp]; rfl⟩
  | red m rep d a => exact ⟨_, rfl, by rw [← hreg a, ← hp]; rfl⟩
  | inv m rep d a => exact ⟨_, rfl, by rw [← hreg a, ← hp]; rfl⟩

/-- The completion step of the word in CMD depends on it, the parameters and the registers alone. -/
theorem runCommand_completion_congr {s t : State} (h : SameFlight s t) :
    ∃ c, runCommand s = .next (complete c s) ∧ runCommand t = .next (complete c t) := by
  simp only [runCommand, h.cmd]
  cases decode s.cmd with
  | ok i => exact exec_completion_congr h.params h.pr i
  | error e => exact ⟨.illegal, rfl, rfl⟩

/-- One completion writes the same registers and tags over the same registers and tags. -/
theorem complete_regs_congr {s t : State} (hr : t.pr = s.pr) (ht : t.tags = s.tags) (c : Completion) :
    (complete c t).pr = (complete c s).pr ∧ (complete c t).tags = (complete c s).tags := by
  cases c with
  | okWrite d m v =>
    simp only [complete, Completion.writeDest, State.setReg, State.setTag, hr, ht, and_self]
  | okNothing => exact ⟨hr, ht⟩
  | illegal => exact ⟨hr, ht⟩
  | noinv => exact ⟨hr, ht⟩

/-- A run goes on from the state after its first step. -/
theorem run_of_step {s t : State} (h : step s = .next t) (k : Nat) : core.run (k + 1) s = core.run k t := by
  simp only [Host.Core.run]
  rw [show core.step s = .next t from h]

/-- In a stream without reset the engine's turn comes after at most as many steps as there are events, and finds the command in
flight as it was (20_memory.md R70, 40_command.md R117). -/
theorem engine_turn_reached {s : State} (hb : s.busy = true) (hreset : ∀ e ∈ s.stream, e ≠ .reset) :
    ∃ k ≤ s.stream.length, ∃ t, core.run k s = .next t ∧ SameFlight s t ∧ t.EngineNext := by
  generalize hev : s.stream = evs at hreset ⊢
  induction evs generalizing s with
  | nil => exact ⟨0, le_rfl, s, rfl, .refl s, .inl hev⟩
  | cons e rest ih =>
    cases e with
    | engine => exact ⟨0, Nat.zero_le _, s, rfl, .refl s, .inr ⟨rest, hev⟩⟩
    | reset => exact absurd rfl (hreset .reset List.mem_cons_self)
    | host x =>
      have htaken : SameFlight s { s with stream := rest } := ⟨rfl, rfl, rfl, rfl, rfl, rfl⟩
      have hflight := htaken.trans (transact_busy_sameFlight (htaken.busy.trans hb) x)
      obtain ⟨k, hk, t, hrun, ht, hturn⟩ := ih (hflight.busy.trans hb) (stream_transact x _)
        fun e he => hreset e (List.mem_cons_of_mem _ he)
      exact ⟨k + 1, Nat.succ_le_succ hk, t, (run_of_step (step_host hev) k).trans hrun, hflight.trans ht, hturn⟩

/-- Settles O41: no transaction touches what the command in flight reads, so the engine's turn completes it as it would have been
completed at once. -/
theorem commandInFlightIsIsolated : Obligations.CommandInFlightIsIsolated := by
  intro s hb hreset
  obtain ⟨k, hk, t, hrun, hflight, hturn⟩ := engine_turn_reached hb hreset
  have hbusy : t.busy = true := hflight.busy.trans hb
  obtain ⟨c, hs, ht⟩ := runCommand_completion_congr (hflight.trans (⟨rfl, rfl, rfl, rfl, rfl, rfl⟩ : SameFlight t t.turn))
  obtain ⟨hpr, htags⟩ := complete_regs_congr (s := s) (t := t.turn) hflight.pr hflight.tags c
  have hlast : core.run (k + 1) s = .next (complete c t.turn) :=
    (run_succ hrun).trans ((step_turn_busy hturn hbusy).trans ht)
  exact ⟨_, hs, k, hk, t, _, hrun, hbusy, hflight.pr, hflight.tags, hflight.cmd, hflight.err, hturn, hlast, rfl, rfl, hpr,
    htags, rfl⟩

end Sys2Proof.Machine
end

section
/-! The encoding of commands (30_encoding.md): the fields of a word, which words are legal, decoder and encoder as inverses, the
rows of the opcode table, and the completion of an ILLEGAL word. -/

namespace Sys2Proof

/-! ## The fields of a word (R90) -/

/-- The six fields of R90, cut out of any word. -/
def wordFields (w : Word) : CommandFields where
  op := w.toNat % 16
  msel := w.toNat / 2 ^ 4 % 2
  rep := w.toNat / 2 ^ 5 % 2
  rd := w.toNat / 2 ^ 8 % 8
  ra := w.toNat / 2 ^ 12 % 8
  rb := w.toNat / 2 ^ 16 % 8

@[simp] theorem bit_mselOf (w : Word) : (mselOf w).bit = w.toNat / 2 ^ 4 % 2 := by
  rw [mselOf, bitField_eq]
  split <;> simp only [MSel.bit] <;> omega

@[simp] theorem bit_repOf (w : Word) : (repOf w).bit = w.toNat / 2 ^ 5 % 2 := by
  rw [repOf, bitField_eq]
  split <;> simp only [Rep.bit] <;> omega

/-- Every value of a three-bit field names a register (R91). -/
theorem val_regField (w : Word) (lo : Nat) : (Fin.ofNat 8 (bitField w lo 3)).val = w.toNat / 2 ^ lo % 8 := by
  rw [bitField_eq, Fin.val_ofNat]
  exact Nat.mod_mod _ _

@[simp] theorem val_rdOf (w : Word) : (rdOf w).val = w.toNat / 2 ^ 8 % 8 := val_regField w 8
@[simp] theorem val_raOf (w : Word) : (raOf w).val = w.toNat / 2 ^ 12 % 8 := val_regField w 12
@[simp] theorem val_rbOf (w : Word) : (rbOf w).val = w.toNat / 2 ^ 16 % 8 := val_regField w 16

theorem MSel.bit_injective : Function.Injective MSel.bit := by
  intro a b
  cases a <;> cases b <;> simp [MSel.bit]

theorem Rep.bit_injective : Function.Injective Rep.bit := by
  intro a b
  cases a <;> cases b <;> simp [Rep.bit]

/-- OP tells the operations apart, and the other fields determine the operands. -/
theorem Instr.fields_injective : Function.Injective Instr.fields := by
  intro i j
  cases i <;> cases j <;>
    simp [Instr.fields, MSel.bit_injective.eq_iff, Rep.bit_injective.eq_iff, Fin.val_inj]

theorem MSel.bit_le_one (m : MSel) : m.bit ≤ 1 := by cases m <;> decide
theorem Rep.bit_le_one (r : Rep) : r.bit ≤ 1 := by cases r <;> decide

/-- The three checks of well-formed fields, as arithmetic (R90, R94, R95). -/
theorem CommandFields.wellFormed_iff (f : CommandFields) : f.wellFormed = true ↔
    f.op ≤ 4 ∧ f.msel ≤ 1 ∧ f.rep ≤ 1 ∧ f.rd ≤ 7 ∧ f.ra ≤ 7 ∧ f.rb ≤ 7 ∧
    (f.op = 0 → f.msel = 0 ∧ f.rep = 0 ∧ f.rd = 0 ∧ f.ra = 0 ∧ f.rb = 0) ∧ (f.op = 3 ∨ f.op = 4 → f.rb = 0) := by
  simp only [wellFormed, opDefined, optionsFit, registersFit, unusedZero, Bool.and_eq_true, decide_eq_true_eq]
  split_ifs <;> simp <;> omega

/-- Every command is well formed, since its operands cannot be too large. -/
theorem Instr.wellFormed (i : Instr) : i.WellFormed := by
  rw [Instr.WellFormed, CommandFields.wellFormed_iff]
  cases i <;> simp [Instr.fields, MSel.bit_le_one, Rep.bit_le_one] <;> omega

/-! ## Which words are legal (R95, R96) -/

/-- A word is legal exactly when its reserved bits are 0 and its fields are well formed. -/
abbrev LegalWord (w : Word) : Prop := ReservedZero w ∧ (wordFields w).wellFormed = true

/-- A legal word has the fields of its command, an illegal word's rejection is named by its OP. -/
theorem decode_legal_or_illegal (w : Word) :
    (LegalWord w ∧ ∃ i, decode w = .ok i ∧ i.fields = wordFields w) ∨
    (¬LegalWord w ∧ decode w = .error (illegalReason w)) := by
  simp only [LegalWord, CommandFields.wellFormed_iff]
  obtain ⟨hw, hd⟩ | ⟨hop, hres, hd⟩ | ⟨hop, hres, hd⟩ | ⟨hop, hres, hrb, hd⟩ | ⟨hop, hres, hrb, hd⟩ |
    ⟨hd, h0, h1, h2, h3, h4⟩ := decode_cases w
  · exact .inl ⟨by simp [wordFields, ReservedZero, hw], _, hd, by simp [Instr.fields, wordFields, hw]⟩
  · exact .inl ⟨⟨hres, by simp only [wordFields]; omega⟩, _, hd, by rw [wordFields, hop]; simp [buildInstr, Instr.fields]⟩
  · exact .inl ⟨⟨hres, by simp only [wordFields]; omega⟩, _, hd, by rw [wordFields, hop]; simp [buildInstr, Instr.fields]⟩
  · exact .inl ⟨⟨hres, by simp only [wordFields]; omega⟩, _, hd, by rw [wordFields, hop, hrb]; simp [buildInstr, Instr.fields]⟩
  · exact .inl ⟨⟨hres, by simp only [wordFields]; omega⟩, _, hd, by rw [wordFields, hop, hrb]; simp [buildInstr, Instr.fields]⟩
  · refine .inr ⟨?_, hd⟩
    simp only [wordFields, ReservedZero] at *
    omega

theorem fields_of_decode {w : Word} {i : Instr} (h : decode w = .ok i) : LegalWord w ∧ i.fields = wordFields w := by
  obtain ⟨hl, j, hj, hf⟩ | ⟨-, he⟩ := decode_legal_or_illegal w
  · rw [h] at hj
    cases hj
    exact ⟨hl, hf⟩
  · rw [h] at he
    cases he

/-- A word with reserved bits 0 is put together again from its fields. -/
theorem toNat_eq_of_reservedZero {w : Word} (h : ReservedZero w) :
    w.toNat = (wordFields w).op + (wordFields w).msel * 2 ^ 4 + (wordFields w).rep * 2 ^ 5 + (wordFields w).rd * 2 ^ 8 +
      (wordFields w).ra * 2 ^ 12 + (wordFields w).rb * 2 ^ 16 := by
  simp only [wordFields, ReservedZero] at *
  omega

theorem encode_toNat (i : Instr) : (encode i).toNat =
    i.fields.op + i.fields.msel * 2 ^ 4 + i.fields.rep * 2 ^ 5 + i.fields.rd * 2 ^ 8 + i.fields.ra * 2 ^ 12 +
      i.fields.rb * 2 ^ 16 := assemble_toNat i.wellFormed

/-- Cutting an assembled word gives the fields back, and nothing stands in a reserved bit. -/
theorem wordFields_encode (i : Instr) : wordFields (encode i) = i.fields ∧ ReservedZero (encode i) := by
  have he := encode_toNat i
  obtain ⟨hop, hm, hr, hd, ha, hb, -, -⟩ := (CommandFields.wellFormed_iff _).mp i.wellFormed
  generalize i.fields = f at *
  obtain ⟨op, msel, rep, rd, ra, rb⟩ := f
  simp only [wordFields, ReservedZero, CommandFields.mk.injEq] at *
  omega

theorem decode_encode (i : Instr) : decode (encode i) = .ok i := by
  obtain ⟨hf, hres⟩ := wordFields_encode i
  obtain ⟨-, j, hj, hfj⟩ | ⟨hn, -⟩ := decode_legal_or_illegal (encode i)
  · rw [hj, Instr.fields_injective (hfj.trans hf)]
  · exact absurd ⟨hres, hf ▸ i.wellFormed⟩ hn

theorem encode_of_decode {w : Word} {i : Instr} (h : decode w = .ok i) : encode i = w := by
  obtain ⟨⟨hres, -⟩, hf⟩ := fields_of_decode h
  apply BitVec.eq_of_toNat_eq
  rw [encode_toNat, hf, ← toNat_eq_of_reservedZero hres]

/-- Settles O2: both directions go through the fields, which determine the command and, with reserved bits 0, the word. -/
theorem decodeAndEncodeAgree : Obligations.DecodeAndEncodeAgree := fun _ i =>
  ⟨encode_of_decode, fun h => h ▸ decode_encode i⟩

/-- Settles O1: each legal sample is its command's word. -/
theorem sampleWordsDecode : Obligations.SampleWordsDecode :=
  ⟨decode_encode .nop, decode_encode (.add .q .sym 2 0 1), decode_encode (.mul .q .sym 4 2 3),
    decode_encode (.red .p .sym 1 0), decode_encode (.inv .p .sym 1 0), decode_encode (.inv .q .nonneg 2 0),
    decode_encode (.mul .p .nonneg 7 7 7), by decide, by decide⟩

/-- Settles O4: a legal word's command has the word's fields, and is well formed as every command is. -/
theorem fieldsOfLegalWords : Obligations.FieldsOfLegalWords := by
  intro w i h
  obtain ⟨⟨⟨h6, h11, h15, h19⟩, -⟩, hf⟩ := fields_of_decode h
  refine ⟨i.wellFormed, ?_, ?_, ?_, ?_, ?_, ?_, h6, h11, h15, h19, encode_toNat i⟩ <;> rw [hf] <;> rfl

/-- Settles O5: a word is legal exactly when its reserved bits are 0 and its fields are well formed. -/
theorem reservedWordsAreIllegal : Obligations.ReservedWordsAreIllegal := by
  intro w op reservedBit unusedBit
  have hreason : illegalReason w = if op ≤ 4 then .reservedBits else .reservedOp := by
    rw [illegalReason, bitField_eq, pow_zero, Nat.div_one]
    rfl
  have hlegal : LegalWord w ↔ op ≤ 4 ∧ ¬reservedBit ∧ ¬unusedBit := by
    simp only [LegalWord, CommandFields.wellFormed_iff, wordFields, ReservedZero, op, reservedBit, unusedBit]
    omega
  obtain ⟨hl, i, hi, -⟩ | ⟨hn, he⟩ := decode_legal_or_illegal w
  · obtain ⟨hop, hres, hunused⟩ := hlegal.mp hl
    exact ⟨fun h => by omega, fun _ h => absurd h (not_or.mpr ⟨hres, hunused⟩), fun _ _ _ => ⟨i, hi⟩⟩
  · refine ⟨fun h => ?_, fun h _ => ?_, fun h hres hunused => absurd (hlegal.mpr ⟨h, hres, hunused⟩) hn⟩
    · rw [he, hreason, if_neg (by omega)]
    · rw [he, hreason, if_pos h]

/-! ## The rows of the match/mask table (R95, R96) -/

theorem bitField_and (x y : Word) (lo len : Nat) : bitField (x &&& y) lo len = bitField x lo len &&& bitField y lo len := by
  simp [bitField, BitVec.extractLsb'_and]

/-- A mask that fixes all four OP bits leaves OP as it is. -/
theorem bitField_masked_op {m : Word} (hm : bitField m 0 4 = 15) (w : Word) : bitField (w &&& m) 0 4 = bitField w 0 4 := by
  have hlt : bitField w 0 4 < 2 ^ 4 := BitVec.isLt _
  rw [bitField_and, hm, Nat.and_two_pow_sub_one_eq_mod _ 4, Nat.mod_eq_of_lt hlt]

theorem rows_mask_op : ∀ r ∈ rows, bitField r.mask 0 4 = 15 := by decide

/-- Rows with one OP are one row. -/
theorem rows_op_injective : ∀ r ∈ rows, ∀ r' ∈ rows, bitField r.pattern 0 4 = bitField r'.pattern 0 4 → r = r' := by decide

/-- No two rows accept a word, since both would fix its OP. -/
theorem row_unique {w : Word} {r r' : Row} (hr : r ∈ rows) (hr' : r' ∈ rows) (h : w &&& r.mask = r.pattern)
    (h' : w &&& r'.mask = r'.pattern) : r = r' := by
  apply rows_op_injective r hr r' hr'
  rw [← h, ← h', bitField_masked_op (rows_mask_op r hr), bitField_masked_op (rows_mask_op r' hr')]

theorem row_buildInstr (w : Word) : ∀ r ∈ rows, (buildInstr r.op w).row = r := by
  simp [rows, buildInstr, Instr.row]

theorem Row.accepts_iff (r : Row) (w : Word) : r.accepts w = true ↔ w &&& r.mask = r.pattern := beq_iff_eq

/-- Settles O3: the decoder takes the first row that accepts the word, and no second one can. -/
theorem decoderPicksTheOneRow : Obligations.DecoderPicksTheOneRow := by
  refine ⟨by decide, rows_mask_op, fun w => ?_⟩
  cases hfind : rows.find? fun r => r.accepts w with
  | some r =>
    have hmem := List.mem_of_find?_eq_some hfind
    have hacc := (r.accepts_iff w).mp (List.find?_some (p := fun r : Row => r.accepts w) hfind)
    exact .inl ⟨r, hmem, hacc, fun r' hmem' hacc' => row_unique hmem' hmem hacc' hacc, buildInstr r.op w,
      by rw [decode, hfind], row_buildInstr w r hmem⟩
  | none =>
    refine .inr ⟨fun r hmem hacc => ?_, illegalReason w, by rw [decode, hfind]⟩
    exact List.find?_eq_none.mp hfind r hmem ((r.accepts_iff w).mpr hacc)

end Sys2Proof

namespace Sys2Proof.Machine

/-! ## The completion of an ILLEGAL word (R97) -/

theorem runCommand_illegal {s : State} {e : IllegalWord} (h : decode s.cmd = .error e) :
    runCommand s = .next (completeIllegal s) := by
  rw [runCommand, h]

/-- Settles O9: the engine's turn is the completion with code ILLEGAL, which writes no destination. -/
theorem illegalCommandCompletes : Obligations.IllegalCommandCompletes := fun s _ hb hturn hdec =>
  ⟨completeIllegal s.turn, (step_turn_busy hturn hb).trans (runCommand_illegal hdec), ⟨rfl, rfl, rfl⟩, fun _ => ⟨rfl, rfl⟩,
    ⟨rfl, rfl, rfl, rfl, rfl⟩, memRead_cmd _⟩

end Sys2Proof.Machine
end

section
/-! The assembler reads back the text written for a word (30_encoding.md R100). -/

namespace Sys2Proof.Assembler

/-! ## Spaces and separators -/

/-- There is no space around the characters. -/
def Trimmed (cs : List Char) : Prop := cs.head? ≠ some ' ' ∧ cs.getLast? ≠ some ' '

theorem dropWhile_space_of_head {cs : List Char} (h : cs.head? ≠ some ' ') : cs.dropWhile (· = ' ') = cs := by
  cases cs with
  | nil => rfl
  | cons c cs => exact List.dropWhile_cons_of_neg (by simpa using h)

theorem trimSpaces_of_trimmed {cs : List Char} (h : Trimmed cs) : trimSpaces cs = cs := by
  obtain ⟨hhead, hlast⟩ := h
  rw [trimSpaces, dropWhile_space_of_head hhead, dropWhile_space_of_head (by rwa [List.head?_reverse]), List.reverse_reverse]

theorem trimSpaces_space_cons (cs : List Char) : trimSpaces (' ' :: cs) = trimSpaces cs := by
  rw [trimSpaces, List.dropWhile_cons_of_pos (by decide), trimSpaces]

theorem trimmed_of_not_mem {cs : List Char} (h : ' ' ∉ cs) : Trimmed cs :=
  ⟨fun e => h (List.mem_of_head? e), fun e => h (List.mem_of_getLast? e)⟩

theorem Trimmed.append {xs zs : List Char} (hx : Trimmed xs) (hxne : xs ≠ []) (ys : List Char) (hz : Trimmed zs)
    (hzne : zs ≠ []) : Trimmed (xs ++ ys ++ zs) := by
  refine ⟨?_, ?_⟩
  · rw [List.append_assoc, List.head?_append_of_ne_nil _ hxne]
    exact hx.1
  · rw [List.getLast?_append_of_ne_nil _ hzne]
    exact hz.2

theorem cutAt_of_not_mem {c : Char} {xs : List Char} (h : c ∉ xs) : cutAt c xs = [xs] := by
  induction xs with
  | nil => rfl
  | cons x xs ih =>
    obtain ⟨hx, hxs⟩ := List.ne_and_not_mem_of_not_mem_cons h
    rw [cutAt, if_neg (Ne.symm hx), ih hxs]

theorem cutAt_append {c : Char} {xs : List Char} (h : c ∉ xs) (ys : List Char) :
    cutAt c (xs ++ c :: ys) = xs :: cutAt c ys := by
  induction xs with
  | nil => rw [List.nil_append, cutAt, if_pos rfl]
  | cons x xs ih =>
    obtain ⟨hx, hxs⟩ := List.ne_and_not_mem_of_not_mem_cons h
    rw [List.cons_append, cutAt, if_neg (Ne.symm hx), ih hxs]

/-! ## A line of a mnemonic and operands -/

/-- What the assembler reads: the characters of a text in lower case. -/
def lower (text : String) : List Char := text.toList.map Char.toLower

@[simp] theorem lower_append (s t : String) : lower (s ++ t) = lower s ++ lower t := by simp [lower]

/-- The text is a mnemonic with its options, one space, and operands without spaces around them. -/
structure IsLine (text : String) (head tail : List Char) : Prop where
  chars : lower text = head ++ [' '] ++ tail
  head_ne : head ≠ []
  head_space : ' ' ∉ head
  tail_ne : tail ≠ []
  tail_trimmed : Trimmed tail

theorem IsLine.trim {text : String} {head tail : List Char} (h : IsLine text head tail) :
    trimSpaces (text.toList.map Char.toLower) = head ++ [' '] ++ tail :=
  (congrArg trimSpaces h.chars).trans <| trimSpaces_of_trimmed <|
    (trimmed_of_not_mem h.head_space).append h.head_ne [' '] h.tail_trimmed h.tail_ne

/-- The first space ends the mnemonic. -/
theorem IsLine.split {text : String} {head tail : List Char} (h : IsLine text head tail) :
    (trimSpaces (text.toList.map Char.toLower)).takeWhile (· ≠ ' ') = head ∧
      trimSpaces ((trimSpaces (text.toList.map Char.toLower)).dropWhile (· ≠ ' ')) = tail := by
  have hall : ∀ c ∈ head, decide (c ≠ ' ') = true := fun c hc =>
    decide_eq_true fun e => h.head_space (e ▸ hc)
  rw [h.trim, List.append_assoc, List.takeWhile_append_of_pos hall, List.dropWhile_append_of_pos hall]
  refine ⟨List.append_nil head, ?_⟩
  exact (trimSpaces_space_cons tail).trans (trimSpaces_of_trimmed h.tail_trimmed)

/-! ## Commands -/

/-- A register in lower case. -/
def regChars (r : Reg) : List Char := ['p', 'r', Char.ofNat (48 + r.val)]

/-- An operand list in lower case. -/
def operandChars (r : Reg) : List Reg → List Char
  | [] => regChars r
  | x :: xs => regChars r ++ ',' :: ' ' :: operandChars x xs

/-- The options in lower case, cut at their dots. -/
def optionWords : MSel → Rep → List (List Char)
  | .p, .sym => [['p']]
  | .p, .nonneg => [['p'], ['u']]
  | .q, .sym => [['q']]
  | .q, .nonneg => [['q'], ['u']]

theorem readOptions_optionWords (m : MSel) (rep : Rep) : readOptions (optionWords m rep) = some (m, rep) := by
  cases m <;> cases rep <;> rfl

theorem optionWords_ne_nil (m : MSel) (rep : Rep) : optionWords m rep ≠ [] := by
  cases m <;> cases rep <;> exact List.cons_ne_nil _ _

theorem lower_regText (r : Reg) : lower (regText r) = regChars r := by
  revert r; decide +kernel

theorem regChars_plain (r : Reg) : ' ' ∉ regChars r ∧ ',' ∉ regChars r := by
  revert r; decide

theorem readReg_regChars (r : Reg) : readReg (regChars r) = some r := by
  revert r; decide

theorem trimSpaces_regChars (r : Reg) : trimSpaces (regChars r) = regChars r :=
  trimSpaces_of_trimmed (trimmed_of_not_mem (regChars_plain r).1)

theorem operandChars_ne_nil (r : Reg) (rs : List Reg) : operandChars r rs ≠ [] := by
  cases rs <;> exact List.cons_ne_nil _ _

theorem operandChars_trimmed (r : Reg) (rs : List Reg) : Trimmed (operandChars r rs) := by
  have hreg (r : Reg) : Trimmed (regChars r) := trimmed_of_not_mem (regChars_plain r).1
  induction rs generalizing r with
  | nil => exact hreg r
  | cons x xs ih =>
    have := (hreg r).append (List.cons_ne_nil _ _) [',', ' '] (ih x) (operandChars_ne_nil x xs)
    rwa [List.append_assoc] at this

/-- The operands are read back, with or without the space after a comma. -/
theorem readRegs_operandChars (r : Reg) (rs : List Reg) :
    readRegs (cutAt ',' (operandChars r rs)) = some (r :: rs) ∧
      readRegs (cutAt ',' (' ' :: operandChars r rs)) = some (r :: rs) := by
  have hcomma (r : Reg) : ',' ∉ ' ' :: regChars r := List.not_mem_cons_of_ne_of_not_mem (by decide) (regChars_plain r).2
  induction rs generalizing r with
  | nil =>
    rw [operandChars, cutAt_of_not_mem (regChars_plain r).2, cutAt_of_not_mem (hcomma r)]
    simp [readRegs, trimSpaces_space_cons, trimSpaces_regChars, readReg_regChars]
  | cons x xs ih =>
    rw [operandChars, cutAt_append (regChars_plain r).2, ← List.cons_append, cutAt_append (hcomma r)]
    simp [readRegs, trimSpaces_space_cons, trimSpaces_regChars, readReg_regChars, (ih x).2]

/-- A line whose mnemonic has options stands for the command of its name, options and registers. -/
theorem assemble_command {text : String} {head name : List Char} {m : MSel} {rep : Rep} {r : Reg} {rs : List Reg}
    (h : IsLine text head (operandChars r rs)) (hcut : cutAt '.' head = name :: optionWords m rep) (hname : name ≠ []) :
    assemble text = (buildText (String.ofList name) m rep (r :: rs)).map encode := by
  obtain ⟨hhead, htail⟩ := h.split
  rw [assemble, hhead, htail, hcut]
  obtain ⟨o, os, ho⟩ := List.exists_cons_of_ne_nil (optionWords_ne_nil m rep)
  obtain ⟨c, cs, rfl⟩ := List.exists_cons_of_ne_nil hname
  have hopt := readOptions_optionWords m rep
  rw [ho] at hopt ⊢
  simp [hopt, (readRegs_operandChars r rs).1]

/-- The text of a command with options and registers, each register after the first behind a comma. -/
def commandText (name : String) (m : MSel) (rep : Rep) (r : Reg) (rs : List Reg) : String :=
  rs.foldl (fun t x => t ++ ", " ++ regText x) (name ++ mselText m ++ repText rep ++ " " ++ regText r)

theorem lower_operands (t : String) (r : Reg) (rs : List Reg) :
    lower (rs.foldl (fun t x => t ++ ", " ++ regText x) (t ++ regText r)) = lower t ++ operandChars r rs := by
  induction rs generalizing t r with
  | nil => rw [List.foldl_nil, lower_append, lower_regText, operandChars]
  | cons x xs ih =>
    rw [List.foldl_cons, ih, lower_append, lower_append, lower_regText, List.append_assoc, List.append_assoc]
    rfl

/-- The options follow the name after its dot. -/
theorem cutAt_options {name : List Char} (h : '.' ∉ name) (m : MSel) (rep : Rep) :
    cutAt '.' (name ++ lower (mselText m ++ repText rep)) = name :: optionWords m rep := by
  cases m <;> cases rep <;> exact cutAt_append h _

theorem options_no_space (m : MSel) (rep : Rep) : ' ' ∉ lower (mselText m ++ repText rep) := by
  cases m <;> cases rep <;> decide +kernel

/-- A name in lower case, without spaces and dots. -/
abbrev PlainName (name : String) : Prop :=
  lower name = name.toList ∧ name.toList ≠ [] ∧ ' ' ∉ name.toList ∧ '.' ∉ name.toList

theorem assemble_commandText {name : String} (h : PlainName name) (m : MSel) (rep : Rep) (r : Reg) (rs : List Reg) :
    assemble (commandText name m rep r rs) = (buildText name m rep (r :: rs)).map encode := by
  obtain ⟨hlower, hne, hspace, hdot⟩ := h
  have hline : IsLine (commandText name m rep r rs) (name.toList ++ lower (mselText m ++ repText rep)) (operandChars r rs) :=
    { chars := by
        simp only [commandText, lower_operands, lower_append, hlower, List.append_assoc]
        rfl
      head_ne := List.append_ne_nil_of_left_ne_nil hne _
      head_space := List.not_mem_append hspace (options_no_space m rep)
      tail_ne := operandChars_ne_nil r rs
      tail_trimmed := operandChars_trimmed r rs }
  rw [assemble_command hline (cutAt_options hdot m rep) hne, String.ofList_toList]

/-- The names of the four commands with operands. -/
theorem plainName_commands : ∀ name ∈ ["add", "mul", "red", "inv"], PlainName name := by decide +kernel

/-- The text of a command stands for its word. -/
theorem assemble_instrText (i : Instr) : assemble (instrText i) = some (encode i) := by
  cases i with
  | nop => decide +kernel
  | add m rep d a b => exact assemble_commandText (plainName_commands "add" (by decide)) m rep d [a, b]
  | mul m rep d a b => exact assemble_commandText (plainName_commands "mul" (by decide)) m rep d [a, b]
  | red m rep d a => exact assemble_commandText (plainName_commands "red" (by decide)) m rep d [a]
  | inv m rep d a => exact assemble_commandText (plainName_commands "inv" (by decide)) m rep d [a]

/-! ## Words in hexadecimal -/

/-- The eight digits of a word, most significant first. -/
def nibbles (w : Word) : List Nat := (List.range 8).map fun k => bitField w (4 * (7 - k)) 4

/-- Digits as the assembler reads them, in lower case. -/
def hexChars (ds : List Nat) : List Char := ds.map fun d => (hexDigit d).toLower

theorem lower_hexText (w : Word) : lower (hexText w) = hexChars (nibbles w) := by
  simp [lower, hexText, hexChars, nibbles]

theorem nibbles_lt (w : Word) : ∀ d ∈ nibbles w, d < 16 := by
  intro d hd
  obtain ⟨k, -, rfl⟩ := List.mem_map.mp hd
  exact BitVec.isLt _

theorem hexValue_hexDigit : ∀ d < 16, hexValue (hexDigit d).toLower = some d := by decide

theorem hexDigit_ne_space : ∀ d < 16, (hexDigit d).toLower ≠ ' ' := by decide

theorem hexChars_no_space {ds : List Nat} (h : ∀ d ∈ ds, d < 16) : ' ' ∉ hexChars ds := by
  intro hmem
  obtain ⟨d, hd, e⟩ := List.mem_map.mp hmem
  exact hexDigit_ne_space d (h d hd) e

theorem hexNumber_hexChars {ds : List Nat} (h : ∀ d ∈ ds, d < 16) (acc : Nat) :
    hexNumber acc (hexChars ds) = some (ds.foldl (fun v d => 16 * v + d) acc) := by
  induction ds generalizing acc with
  | nil => rfl
  | cons d ds ih =>
    obtain ⟨hd, hds⟩ := List.forall_mem_cons.mp h
    have ih := ih hds (16 * acc + d)
    simp only [hexChars, List.map_cons, hexNumber, hexValue_hexDigit d hd, Option.bind_some, List.foldl_cons] at ih ⊢
    exact ih

/-- The digits of a word are those of its number. -/
theorem foldl_nibbles (w : Word) : (nibbles w).foldl (fun v d => 16 * v + d) 0 = w.toNat := by
  have hw : w.toNat < 2 ^ 32 := w.isLt
  simp only [nibbles, bitField_eq, List.range, List.range.loop, List.map, List.foldl]
  omega

theorem readHexWord_hexChars (w : Word) : readHexWord ('0' :: 'x' :: hexChars (nibbles w)) = some w := by
  have hnum : hexNumber 0 (hexChars (nibbles w)) = some w.toNat := by
    rw [hexNumber_hexChars (nibbles_lt w), foldl_nibbles]
  obtain ⟨c, cs, hcs⟩ : ∃ c cs, hexChars (nibbles w) = c :: cs := ⟨_, _, rfl⟩
  rw [hcs] at hnum ⊢
  rw [readHexWord, hnum, Option.bind_some, if_pos w.isLt, BitVec.ofNat_toNat, BitVec.setWidth_eq]

/-- A `.word` line stands for its number. -/
theorem assemble_hexText (w : Word) : assemble (".word 0x" ++ hexText w) = some w := by
  have hline : IsLine (".word 0x" ++ hexText w) ['.', 'w', 'o', 'r', 'd'] ('0' :: 'x' :: hexChars (nibbles w)) :=
    { chars := by
        rw [lower_append, lower_hexText]
        rfl
      head_ne := List.cons_ne_nil _ _
      head_space := by decide
      tail_ne := List.cons_ne_nil _ _
      tail_trimmed := trimmed_of_not_mem <| List.not_mem_cons_of_ne_of_not_mem (by decide) <|
        List.not_mem_cons_of_ne_of_not_mem (by decide) (hexChars_no_space (nibbles_lt w)) }
  obtain ⟨hhead, htail⟩ := hline.split
  rw [assemble, hhead, htail]
  exact readHexWord_hexChars w

/-- Settles O7: a legal word is written as its command, whose word it is, and any other as its number. -/
theorem assemblerReadsEveryWordBack : Obligations.AssemblerReadsEveryWordBack := by
  intro w
  rw [wordText]
  cases hdec : decode w with
  | ok i => exact (assemble_instrText i).trans (congrArg some (encode_of_decode hdec))
  | error e => exact assemble_hexText w

end Sys2Proof.Assembler
end

section
/-! Commands (40_command.md): acceptance at CMD, `execute` and the completion step with its frame, the step of a busy NRE, and
NOP. -/

namespace Sys2Proof.Machine

/-! ## Acceptance (R111, R112) -/

theorem memWrite_cmd_idle {s : State} (hidle : s.busy = false) (v : Word) :
    memWrite s 0x01C 0b1111 v = (acceptCommand v s, false) := by
  rw [memWrite_cmd, hidle]
  rfl

theorem irq_accept (v : Word) (s : State) : irq (acceptCommand v s) = false := Bool.and_false s.ie

/-- Settles O25: the accepted state is `acceptCommand`, whose completion decodes the word written. -/
theorem commandIsAccepted : Obligations.CommandIsAccepted := fun s v hidle =>
  ⟨acceptCommand v s, memWrite_cmd_idle hidle v, rfl, irq_accept v s, fun _ hdec =>
    ⟨_, runCommand_illegal hdec, complete_completed .illegal _⟩⟩

/-- Settles O26: BUSY is a cause of refusal at CMD. -/
theorem commandIsRefusedWhileBusy : Obligations.CommandIsRefusedWhileBusy := fun _ _ v hb =>
  memWrite_of_refused (.busyCmd rfl hb) v

/-! ## The command in CMD (R113, R114) -/

theorem runCommand_legal {s : State} {i : Instr} (h : decode s.cmd = .ok i) : runCommand s = exec i s := by
  rw [runCommand, h]

/-- Settles O8: the engine's turn completes the word in CMD, which decodes to the command. -/
theorem stepRunsDecodedCommand : Obligations.StepRunsDecodedCommand := fun _ _ hb hturn hdec =>
  (step_turn_busy hturn hb).trans (runCommand_legal hdec)

/-- A number of 32 bits is a command word. -/
theorem tableWord_of_lt {w : Nat} (hw : w < 2 ^ 32) : tableWord 32 w = some (BitVec.ofNat 32 w) := by
  rw [tableWord, Nat.mod_eq_of_lt hw, if_pos hw]

/-- Laying the word out in bytes changes nothing for the decoder (20_memory.md R68). -/
theorem decodeTableWord_of_lt {w : Nat} (hw : w < 2 ^ 32) :
    decodeTableWord 32 w = (decode (BitVec.ofNat 32 w)).toOption := by
  rw [decodeTableWord, tableWord_of_lt hw]
  simp only [decodeBytes, wordOfBytes_bytesOfWord]

theorem ok_of_toOption_eq_some {ε α : Type} {x : Except ε α} {a : α} (h : x.toOption = some a) : x = .ok a := by
  cases x with
  | ok b => exact congrArg Except.ok (Option.some.inj h)
  | error e => cases h

theorem withFetchWord_of_lt (s : State) {w : Nat} (hw : w < 2 ^ 32) :
    s.withFetchWord 32 w = { acceptCommand (BitVec.ofNat 32 w) s with stream := .engine :: s.stream } := by
  rw [State.withFetchWord, tableWord_of_lt hw]

/-- Settles O11: the loaded state is busy with the word in CMD and the engine's turn next, so O8 applies. -/
theorem fetchWordRunsNext : Obligations.FetchWordRunsNext := by
  intro s w i hw hdec
  have hword : decode (BitVec.ofNat 32 w) = .ok i :=
    ok_of_toOption_eq_some ((decodeTableWord_of_lt hw).symm.trans hdec)
  rw [withFetchWord_of_lt s hw]
  exact ⟨stepRunsDecodedCommand _ i rfl (.inr ⟨s.stream, rfl⟩) hword, encode_of_decode hword⟩

/-! ## What a command computes (R114) -/

/-- `execute` of R114: what a command completes with, as a function of the parameters and the polynomial registers alone. -/
def execute (c : Params) (reg : Reg → Poly) : Instr → Completion
  | .nop => .okNothing
  | .add m rep d a b => .okWrite d m (addMod c.n (reg a) (reg b) (modsel c m) rep)
  | .mul m rep d a b => .okWrite d m (mulMod c.n (reg a) (reg b) (modsel c m) rep)
  | .red m rep d a => .okWrite d m (redMod c.n (reg a) (modsel c m) rep)
  | .inv m rep d a => invCompletion c m rep d (reg a)

/-- The completion step of a command is `complete` of what `execute` returns (R113). -/
theorem exec_eq_complete (i : Instr) (s : State) : exec i s = .next (complete (execute s.params s.reg i) s) := by
  cases i <;> rfl

/-- What `execute` returns for a command with a destination, and for NOP, which has none. -/
theorem execute_cases (c : Params) (reg : Reg → Poly) (i : Instr) :
    (destOf i = none ∧ execute c reg i = .okNothing) ∨
    ∃ d, destOf i = some d ∧ ((∃ m v, execute c reg i = .okWrite d m v) ∨ execute c reg i = .noinv) := by
  cases i with
  | nop => exact .inl ⟨rfl, rfl⟩
  | add m rep d a b => exact .inr ⟨d, rfl, .inl ⟨m, _, rfl⟩⟩
  | mul m rep d a b => exact .inr ⟨d, rfl, .inl ⟨m, _, rfl⟩⟩
  | red m rep d a => exact .inr ⟨d, rfl, .inl ⟨m, _, rfl⟩⟩
  | inv m rep d a =>
    refine .inr ⟨d, rfl, ?_⟩
    rw [execute, invCompletion]
    cases invMod c m (reg a) with
    | none => exact .inr rfl
    | some b => exact .inl ⟨m, _, rfl⟩

/-- ILLEGAL is a property of the word, so no command completes with it (60_exceptions.md R171). -/
theorem code_execute_ne_illegal (c : Params) (reg : Reg → Poly) (i : Instr) : (execute c reg i).code ≠ .illegal := by
  obtain ⟨-, e⟩ | ⟨d, -, ⟨m, v, e⟩ | e⟩ := execute_cases c reg i <;> rw [e] <;> simp [Completion.code]

theorem destOf_of_execute_okWrite {c : Params} {reg : Reg → Poly} {i : Instr} {d : Reg} {m : MSel} {v : Poly}
    (h : execute c reg i = .okWrite d m v) : destOf i = some d := by
  obtain ⟨-, e⟩ | ⟨d', hd, ⟨m', v', e⟩ | e⟩ := execute_cases c reg i <;> rw [e] at h <;> cases h
  exact hd

/-- OK of a command with a destination comes with a value for it. -/
theorem execute_okWrite_of_ok {c : Params} {reg : Reg → Poly} {i : Instr} {d : Reg} (hd : destOf i = some d)
    (hok : (execute c reg i).code = .ok) : ∃ m v, execute c reg i = .okWrite d m v := by
  obtain ⟨hnone, -⟩ | ⟨d', hd', hw | e⟩ := execute_cases c reg i
  · simp [hd] at hnone
  · obtain rfl := Option.some.inj (hd.symm.trans hd')
    exact hw
  · simp [e, Completion.code] at hok

/-- One completion over the same registers writes the same registers, whatever the tags. -/
theorem pr_complete_congr {s t : State} (h : s.pr = t.pr) (c : Completion) : (complete c s).pr = (complete c t).pr := by
  cases c with
  | okWrite d m v => exact congrArg (fun pr => pr.set d.val v d.isLt) h
  | okNothing => exact h
  | illegal => exact h
  | noinv => exact h

/-- Settles O40: both states complete with what `execute` returns for their common parameters and registers. -/
theorem commandsReadOnlyRegisters : Obligations.CommandsReadOnlyRegisters := by
  intro i s s' hparams hpr
  have hreg : s.reg = s'.reg := funext fun r => by rw [State.reg, State.reg, hpr]
  have hs := exec_eq_complete i s
  rw [hparams, hreg] at hs
  refine ⟨_, _, hs, exec_eq_complete i s', rfl, pr_complete_congr hpr _, fun d hd hok => ?_⟩
  obtain ⟨m, v, e⟩ := execute_okWrite_of_ok hd hok
  rw [e, tag_complete_okWrite, tag_complete_okWrite, if_pos rfl, if_pos rfl]

/-! ## The frame of a completion (R113) -/

/-- The completion step writes at most the command's destination, and with OK only. -/
theorem execute_writes_only_dest (i : Instr) (s : State) (r : Reg) :
    ((complete (execute s.params s.reg i) s).reg r = s.reg r ∧ (complete (execute s.params s.reg i) s).tag r = s.tag r) ∨
    ((execute s.params s.reg i).code = .ok ∧ destOf i = some r) := by
  refine or_iff_not_imp_left.mpr fun hchange => ?_
  obtain ⟨m, v, e⟩ := okWrite_of_complete_changes (not_and_or.mp hchange)
  exact ⟨by rw [e]; rfl, destOf_of_execute_okWrite e⟩

/-- An aligned address from the windows up that is not unmapped is the address of a coefficient (20_memory.md R63). -/
theorem exists_windowAddr_of_mapped {n : Nat} {a : Addr} (ha : a.toNat % 4 = 0) (hlo : 0x1000 ≤ a.toNat)
    (hmapped : ¬Unmapped n a) : ∃ r i, i < 256 ∧ i < n ∧ a = windowAddr r i := by
  simp only [Unmapped, not_or, not_and, not_le] at hmapped
  obtain ⟨-, hindex, htop⟩ := hmapped
  have := hindex hlo htop
  exact ⟨_, _, Nat.mod_lt _ (by decide), by omega, eq_windowAddr_of_inWindow ha ⟨hlo, htop⟩⟩

/-- Outside STATUS and TAGS a read depends on CTRL, CMD, BUSY and the register whose window is read alone. -/
theorem memRead_congr {s t : State} {a : Addr} (hc : SameControl s t) (hbusy : t.busy = s.busy) (hstatus : a ≠ 0x018)
    (htags : a ≠ 0x020) (hreg : ∀ r i, i < 256 → a = windowAddr r i → t.reg r = s.reg r) : memRead t a = memRead s a := by
  by_cases hlo : a.toNat < 0x1000
  · exact memRead_low_congr hlo hc.params (by rw [ctrlWord, ctrlWord, hc.ie]) hc.cmd (.inl hstatus) (.inl htags)
  by_cases ha : a.toNat % 4 = 0
  · by_cases hu : Unmapped s.params.n a
    · rw [memRead_unmapped hu, memRead_unmapped (hc.params ▸ hu)]
    · obtain ⟨r, i, h256, hn, e⟩ := exists_windowAddr_of_mapped ha (Nat.le_of_not_lt hlo) hu
      have hr := hreg r i h256 e
      rw [e, memRead_window r h256 hn, memRead_window r h256 (hc.params ▸ hn), hbusy, hr]
  · rw [memRead_of_refused (.misaligned ha), memRead_of_refused (.misaligned ha)]

/-- Settles O39: the completion writes at most the destination, and a read outside STATUS and TAGS sees only that. -/
theorem completionFrame : Obligations.CompletionFrame := by
  intro i s
  have hctl := complete_sameControl (execute s.params s.reg i) s
  have hframe := execute_writes_only_dest i s
  refine ⟨_, exec_eq_complete i s, ⟨rfl, rfl, rfl⟩, hctl, code_execute_ne_illegal _ _ i, fun hcode r => ?_,
    fun hnone r => ?_, fun d hd r hr => ?_, fun a hstatus htags hwin => ?_⟩
  · exact (hframe r).resolve_right fun ⟨hok, _⟩ => hcode hok
  · exact (hframe r).resolve_right fun ⟨_, hdest⟩ => by simp [hnone] at hdest
  · exact (hframe r).resolve_right fun ⟨_, hdest⟩ => hr (Option.some.inj (hdest.symm.trans hd))
  · refine memRead_congr ⟨hctl.params, hctl.ie, hctl.cmd, hctl.stream, hctl.resp⟩ rfl hstatus htags fun r k hk e => ?_
    exact ((hframe r).resolve_right fun ⟨_, hdest⟩ => hwin r k hdest hk e).1

/-! ## NOP (R116) -/

theorem statusWord_of_completed_ok {t : State} (h : Completed .ok t) : statusWord t = 0x00000002 := by
  rw [statusWord, h.busy, h.done, h.err]
  rfl

theorem encode_nop : encode .nop = 0x00000000 := rfl

theorem decode_eq_nop_iff (w : Word) : decode w = .ok .nop ↔ w = 0x00000000 := by
  rw [decodeAndEncodeAgree w .nop, encode_nop, eq_comm]

theorem eq_nop_of_op_eq_zero {i : Instr} (h : i.fields.op = 0) : i = .nop := by
  cases i with
  | nop => rfl
  | _ => cases h

/-- With OP = 0 the only legal command is NOP, whose word is 0 (30_encoding.md R97). -/
theorem illegal_of_op_eq_zero {w : Word} (hop : bitField w 0 4 = 0) (hw : w ≠ 0x00000000) : ∃ e, decode w = .error e := by
  cases hdec : decode w with
  | error e => exact ⟨e, rfl⟩
  | ok i =>
    have hi : i.fields.op = 0 := by
      rw [(fields_of_decode hdec).2, ← hop, bitField_eq, pow_zero, Nat.div_one]
      rfl
    rw [eq_nop_of_op_eq_zero hi] at hdec
    exact absurd ((decode_eq_nop_iff w).mp hdec) hw

/-- Settles O49: NOP completes with OK and nothing to write, and its word is 0. -/
theorem nopOnlyCompletes : Obligations.NopOnlyCompletes := by
  refine ⟨fun s => ⟨complete .okNothing s, rfl, rfl, ?_⟩, fun w => ⟨decode_eq_nop_iff w, illegal_of_op_eq_zero⟩⟩
  rw [memRead_status, statusWord_of_completed_ok (complete_completed .okNothing s)]

end Sys2Proof.Machine
end

section
/-! Ring arithmetic (41_ring_arithmetic.md): canonical reduction, the cyclic convolution, the laws of the ring Z_m[x]/(x^N - 1), and
what ADD, MUL, RED, and MUL after INV, write. -/

namespace Sys2Proof.Machine

/-! ## Canonical reduction (R130, R139, R140) -/

/-- Settles O42: `reduce` represents its argument and nothing else does; both moduli of a legal set fit CW bits. -/
theorem reduceIsTheCanonicalRepresentative : Obligations.ReduceIsTheCanonicalRepresentative := by
  refine ⟨fun x m rep hm => ?_, fun c x m rep hc => ?_, fun n m a rep i hi =>
    ⟨coef_reducePoly a m rep hi, length_reducePoly n a m rep⟩⟩
  · have hm1 : 1 ≤ m := Nat.le_of_succ_le hm
    exact ⟨reduce_represents x rep hm1, fun r hr => reduce_unique hm1 hr⟩
  · obtain ⟨htwo, hfits⟩ := modsel_bounds hc m
    exact canonical_inCoefRange hfits (reduce_canonical x rep (Nat.le_of_succ_le htwo))

/-- A second reduction with the same modulus forgets the range of the first. -/
theorem reducePoly_reducePoly (n : Nat) (a : Poly) {m : Nat} (rep rep' : Rep) (hm : 1 ≤ m) :
    reducePoly n (reducePoly n a m rep) m rep' = reducePoly n a m rep' :=
  polyOf_congr fun i hi => by rw [coef_reducePoly a m rep hi, reduce_reduce _ rep rep' hm]

/-- Settles O47: RED is reduction, and the second reduction sees the class alone. -/
theorem redConvertsBetweenRanges : Obligations.RedConvertsBetweenRanges := fun n _ rep rep' a hm =>
  reducePoly_reducePoly n a rep rep' (Nat.le_of_succ_le hm)

/-- The non-negative representative of a negative symmetric one is one modulus higher. -/
theorem reduce_nonneg_of_neg {x : Int} {m : Nat} (h : Canonical x m .sym) (hneg : x < 0) : reduce x m .nonneg = x + m := by
  obtain ⟨hlow, -⟩ := h
  have hcanon : Canonical (x + m) m .nonneg := ⟨by omega, by omega⟩
  exact (reduce_unique (by omega) ⟨hcanon, by simp⟩).symm

/-- P is odd and prime, and Q is a power of two (00_scope.md R6, R7). -/
theorem not_p_dvd_q {c : Params} (h : c.Legal) : ¬c.p ∣ c.q := by
  intro hdvd
  have htwo : c.p = 2 := (Nat.prime_dvd_prime_iff_eq h.p_prime Nat.prime_two).mp (h.p_prime.dvd_of_dvd_pow hdvd)
  have hodd := h.p_odd
  omega

/-- Settles O48: the two representatives differ by Q, which P does not divide. -/
theorem rangePitfall : Obligations.RangePitfall := by
  intro c x rep hc hx hneg heq
  have hq : 1 ≤ c.q := Nat.one_le_two_pow
  rw [reduce_nonneg_of_neg hx hneg, reduce_of_canonical hq hx, reduce_eq_iff hc.p_prime.one_le, add_sub_cancel_left] at heq
  exact not_p_dvd_q hc (Int.natCast_dvd_natCast.mp heq)

/-! ## Convolution and lanes (R131, R134) -/

/-- Settles O43: the model's index is (i - j) mod N, and x^N - 1 divides product minus convolution. -/
theorem convolutionIsTheCyclicSum : Obligations.ConvolutionIsTheCyclicSum := by
  intro n a b
  refine ⟨length_conv n a b, fun i hi => (coef_conv a b hi).trans (convCoef_eq_sum_mod a b), ?_⟩
  have hclass := cls_conv n Int a b
  rw [cls, cls, cls, ← map_mul, eq_comm, AdjoinRoot.mk_eq_mk] at hclass
  exact hclass

theorem coef_sumPoly {n i : Nat} (a b : Poly) (h : i < n) : coef (sumPoly n a b) i = coef a i + coef b i := coef_polyOf_lt _ h

/-- The polynomial x^k. -/
def monomialPoly (n k : Nat) : Poly := polyOf n fun i => if i = k then 1 else 0

theorem coef_monomialPoly {n k i : Nat} (h : i < n) : coef (monomialPoly n k) i = if i = k then 1 else 0 := coef_polyOf_lt _ h

/-- The convolution with x^k rotates the lanes by k. -/
theorem convCoef_monomialPoly {n k : Nat} (hk : k < n) (b : Poly) (i : Nat) :
    convCoef n (monomialPoly n k) b i = coef b ((i + n - k) % n) := by
  rw [convCoef_eq_sum, Finset.sum_eq_single_of_mem k (Finset.mem_range.mpr hk)]
  · simp [coef_monomialPoly hk]
  · intro j hj hne
    simp [coef_monomialPoly (Finset.mem_range.mp hj), hne]

theorem coef_mulMod {n i : Nat} (a b : Poly) (m : Nat) (rep : Rep) (h : i < n) :
    coef (mulMod n a b m rep) i = reduce (convCoef n a b i) m rep := by
  rw [mulMod, coef_reducePoly _ m rep h, coef_conv a b h]

/-- Lane 0 of x^(N - 1) times x is 1, of x^(N - 1) times ZERO is 0, though x and ZERO agree in lane 0. -/
theorem mul_not_lanewise {n m : Nat} (rep : Rep) (hn : 2 ≤ n) (hm : 2 ≤ m) : ∃ a a' b : Poly, coef a 0 = coef a' 0 ∧
    coef (mulMod n a b m rep) 0 ≠ coef (mulMod n a' b m rep) 0 := by
  have hzero : convCoef n (zeroPoly n) (monomialPoly n (n - 1)) 0 = 0 := by simp [convCoef_eq_sum]
  have hx : convCoef n (monomialPoly n 1) (monomialPoly n (n - 1)) 0 = 1 := by
    rw [convCoef_monomialPoly hn, zero_add, Nat.mod_eq_of_lt (by omega), coef_monomialPoly (by omega), if_pos rfl]
  refine ⟨zeroPoly n, monomialPoly n 1, monomialPoly n (n - 1), ?_, ?_⟩
  · rw [coef_zeroPoly, coef_monomialPoly (by omega), if_neg zero_ne_one]
  · rw [coef_mulMod _ _ m rep (by omega), coef_mulMod _ _ m rep (by omega), hzero, hx, reduce_zero rep (by omega),
      reduce_one rep hm]
    exact zero_ne_one

/-- Settles O44: a lane of a reduced polynomial is a function of that lane, and MUL moves lanes. -/
theorem addAndRedAreLanewise : Obligations.AddAndRedAreLanewise := by
  refine ⟨fun n m rep i a a' b b' ha hb => ?_, fun n m rep hn hm => mul_not_lanewise rep hn hm⟩
  simp only [addMod, redMod, reducePoly, sumPoly, coef_polyOf, ha, hb, and_self]

/-! ## The ring Z_m[x]/(x^N - 1) (R135, R137) -/

/-- A product equals a reduced polynomial exactly when its class is that polynomial's. -/
theorem mulMod_eq_reducePoly_iff {n m : Nat} (hn : 1 ≤ n) (hm : 1 ≤ m) {rep : Rep} {a b c : Poly} :
    mulMod n a b m rep = reducePoly n c m rep ↔ cls n (ZMod m) a * cls n (ZMod m) b = cls n (ZMod m) c := by
  rw [mulMod, reducePoly_eq_iff_cls hn hm, cls_conv]

/-- Settles O45: equal reduced forms are equal classes, and each law is that law of the classes. -/
theorem ringLawsHold : Obligations.RingLawsHold := by
  intro n m rep a b c hn hm
  have hm1 : 1 ≤ m := Nat.le_of_succ_le hm
  simp only [addMod, mulMod, reducePoly_eq_iff_cls hn hm1, cls_reducePoly hn, cls_sumPoly, cls_conv]
  exact ⟨fun x y => reduce_congr rep hm1, add_comm _ _, mul_comm _ _, add_assoc _ _ _, mul_assoc _ _ _, mul_add _ _ _⟩

theorem reducePoly_zeroPoly {n m : Nat} (rep : Rep) (hm : 1 ≤ m) : reducePoly n (zeroPoly n) m rep = zeroPoly n :=
  polyOf_congr fun i _ => by rw [coef_zeroPoly, reduce_zero rep hm]

/-- Settles O46: ZERO and ONE are reduced, and their classes are 0 and 1. -/
theorem mulByZeroAndOne : Obligations.MulByZeroAndOne := by
  intro n m rep a hn hm
  have hm1 : 1 ≤ m := Nat.le_of_succ_le hm
  have hzero : reducePoly n (zeroPoly n) m rep = zeroPoly n := reducePoly_zeroPoly rep hm1
  refine ⟨?_, ?_, ?_⟩
  · exact ((mulMod_eq_reducePoly_iff hn hm1).mpr (by rw [cls_zeroPoly, mul_zero])).trans hzero
  · exact ((mulMod_eq_reducePoly_iff hn hm1).mpr (by rw [cls_zeroPoly, zero_mul])).trans hzero
  · exact (mulMod_eq_reducePoly_iff hn hm1).mpr (by rw [cls_onePoly _ hn, mul_one])

/-! ## What the commands write (R132, R133, R136, R139) -/

/-- The command completed with OK, wrote `rd` the canonical representatives of the numbers `x i` and left the rest alone: what ADD,
MUL and RED have in common (40_command.md R113). -/
def WritesReduced (s t : State) (m : MSel) (rep : Rep) (rd : Reg) (x : Nat → Int) : Prop :=
  Completed .ok t ∧ t.tag rd = tagOf m ∧ (t.reg rd).length = s.params.n ∧
    (∀ i < s.params.n, Represents (coef (t.reg rd) i) (x i) (modsel s.params m) rep) ∧
    SameRegsBut rd s t ∧ SameControl s t

theorem okWrite_reducePoly_writesReduced {s : State} (h : s.params.Legal) (m : MSel) (rep : Rep) (rd : Reg) {a : Poly}
    {x : Nat → Int} (hx : ∀ i < s.params.n, coef a i = x i) :
    WritesReduced s (complete (.okWrite rd m (reducePoly s.params.n a (modsel s.params m) rep)) s) m rep rd x := by
  have hm : 1 ≤ modsel s.params m := Nat.le_of_succ_le (modsel_bounds h m).1
  refine ⟨okWrite_completed rd m _ s, ?_, ?_, fun i hi => ?_, okWrite_sameRegsBut rd m _ s, complete_sameControl _ s⟩
  · rw [tag_complete_okWrite, if_pos rfl]
  · rw [reg_complete_okWrite, if_pos rfl, length_reducePoly]
  · rw [reg_complete_okWrite, if_pos rfl, coef_reducePoly a _ rep hi, hx i hi]
    exact reduce_represents _ rep hm

/-- Settles O50: ADD writes the reduced sum of the sources. -/
theorem addWritesReducedSum : Obligations.AddWritesReducedSum := fun s m rep rd ra rb h =>
  ⟨_, exec_eq_complete (.add m rep rd ra rb) s, okWrite_reducePoly_writesReduced h m rep rd fun _ hi => coef_sumPoly _ _ hi⟩

/-- Settles O51: MUL writes the reduced convolution of the sources. -/
theorem mulWritesReducedConvolution : Obligations.MulWritesReducedConvolution := fun s m rep rd ra rb h =>
  ⟨_, exec_eq_complete (.mul m rep rd ra rb) s, okWrite_reducePoly_writesReduced h m rep rd fun _ hi =>
    (coef_conv _ _ hi).trans (convCoef_eq_sum_mod _ _)⟩

/-- Settles O52: RED writes the reduced source. -/
theorem redWritesReducedSource : Obligations.RedWritesReducedSource := fun s m rep rd ra h =>
  ⟨_, exec_eq_complete (.red m rep rd ra) s, okWrite_reducePoly_writesReduced h m rep rd fun _ _ => rfl⟩

/-! ## MUL after INV (R138) -/

/-- The product with an inverse is ONE in either range. -/
theorem mulMod_of_isInverse {n m : Nat} (hn : 1 ≤ n) (hm : 2 ≤ m) {a b : Poly} (h : IsInverse n m a b) (rep : Rep) :
    mulMod n a b m rep = onePoly n := by
  rw [← reducePoly_onePoly (n := n) rep hm, mulMod_eq_reducePoly_iff hn (Nat.le_of_succ_le hm), cls_onePoly _ hn]
  exact (isInverse_iff hn hm a b).mp h

/-- An INV that completes with OK leaves an inverse of its source in the destination. -/
theorem isInverse_of_inv_ok {s t : State} (h : s.params.Legal) {m : MSel} {rep : Rep} {rd ra : Reg}
    (hexec : exec (.inv m rep rd ra) s = .next t) (hok : t.err = .ok) :
    IsInverse s.params.n (modsel s.params m) (s.reg ra) (t.reg rd) := by
  obtain ⟨b, hb, e⟩ | ⟨-, e⟩ := execInv_cases h m rep rd ra
  · obtain rfl := Host.Outcome.next.inj (e.symm.trans hexec)
    rw [reg_complete_okWrite, if_pos rfl]
    exact (isInverse_reducePoly h.one_le_n (modsel_bounds h m).1 _ b rep).mpr hb
  · obtain rfl := Host.Outcome.next.inj (e.symm.trans hexec)
    cases hok

/-- Settles O57: INV leaves an inverse, and the product with it is ONE. -/
theorem invThenMulGivesOne : Obligations.InvThenMulGivesOne := by
  intro s t u m rep rep' rd ra x y re h hexec hok hparams hx hy
  have hinv := isInverse_of_inv_ok h hexec hok
  refine ⟨_, exec_eq_complete (.mul m rep' re x y) u, okWrite_completed re m _ u, ?_⟩
  rw [execute, reg_complete_okWrite, if_pos rfl, hparams, hx, hy]
  exact mulMod_of_isInverse h.one_le_n (modsel_bounds h m).1 hinv rep'

end Sys2Proof.Machine
end

section
/-! The inverse (42_inverse.md): what INV writes for either modulus, when an inverse exists, and the freedom of the lifting
schedule. -/

namespace Sys2Proof.Machine

open Polynomial

/-! ## What INV writes (R150, R151) -/

/-- The command completed with OK, wrote `rd` an inverse of `a` in the chosen range and left the rest of the registers alone. -/
def WritesInverse (s t : State) (m : MSel) (rep : Rep) (rd : Reg) (a : Poly) : Prop :=
  Completed .ok t ∧ t.tag rd = tagOf m ∧ (t.reg rd).length = s.params.n ∧
    (∀ i < s.params.n, Canonical (coef (t.reg rd) i) (modsel s.params m) rep) ∧
    IsInverse s.params.n (modsel s.params m) a (t.reg rd) ∧ SameRegsBut rd s t

theorem okWrite_reducePoly_writesInverse {s : State} (h : s.params.Legal) (m : MSel) (rep : Rep) (rd : Reg) {a b : Poly}
    (hb : IsInverse s.params.n (modsel s.params m) a b) :
    WritesInverse s (complete (.okWrite rd m (reducePoly s.params.n b (modsel s.params m) rep)) s) m rep rd a := by
  obtain ⟨hok, htag, hlen, hcoef, hregs, -⟩ := okWrite_reducePoly_writesReduced h m rep rd (a := b) fun _ _ => rfl
  refine ⟨hok, htag, hlen, fun i hi => (hcoef i hi).1, ?_, hregs⟩
  rw [reg_complete_okWrite, if_pos rfl]
  exact (isInverse_reducePoly h.one_le_n (modsel_bounds h m).1 a b rep).mpr hb

/-- Any inverse, whatever its length, makes a polynomial invertible: it can be reduced to N coefficients. -/
theorem invertible_of_isInverse {n m : Nat} (hn : 1 ≤ n) (hm : 2 ≤ m) {a b : Poly} (h : IsInverse n m a b) :
    Invertible n m a :=
  ⟨_, length_reducePoly n b m .nonneg, (isInverse_reducePoly hn hm a b .nonneg).mpr h⟩

/-- INV for either MSEL: the inverse when there is one, NOINV and nothing written when there is none. -/
theorem inv_writes_inverse_or_noinv {s : State} (h : s.params.Legal) (m : MSel) (rep : Rep) (rd ra : Reg) :
    ∃ t, exec (.inv m rep rd ra) s = .next t ∧ SameControl s t ∧
      (Invertible s.params.n (modsel s.params m) (s.reg ra) → WritesInverse s t m rep rd (s.reg ra)) ∧
      (¬Invertible s.params.n (modsel s.params m) (s.reg ra) → Completed .noinv t ∧ SameRegs s t) := by
  obtain ⟨b, hb, e⟩ | ⟨hnone, e⟩ := execInv_cases h m rep rd ra
  · have hinv := invertible_of_isInverse h.one_le_n (modsel_bounds h m).1 hb
    exact ⟨_, e, complete_sameControl _ s, fun _ => okWrite_reducePoly_writesInverse h m rep rd hb, fun hn => absurd hinv hn⟩
  · exact ⟨_, e, complete_sameControl _ s, fun hinv => absurd hinv hnone, fun _ => ⟨noinv_completed s, fun _ => ⟨rfl, rfl⟩⟩⟩

/-- Settles O53: INV modulo P writes the inverse or completes with NOINV. -/
theorem invModPWritesTheInverse : Obligations.InvModPWritesTheInverse := fun _ rep rd ra h =>
  inv_writes_inverse_or_noinv h .p rep rd ra

/-- Settles O54: INV modulo Q writes the inverse or completes with NOINV. -/
theorem invModQWritesTheInverse : Obligations.InvModQWritesTheInverse := fun _ rep rd ra h =>
  inv_writes_inverse_or_noinv h .q rep rd ra

/-! ## When an inverse exists (R152, R154, R158) -/

/-- The completion code of INV says whether its source is invertible. -/
theorem inv_code_iff_invertible {s : State} (h : s.params.Legal) (m : MSel) (rep : Rep) (rd ra : Reg) :
    ∃ t, exec (.inv m rep rd ra) s = .next t ∧
      (t.err = .ok ↔ Invertible s.params.n (modsel s.params m) (s.reg ra)) ∧ (t.err ≠ .ok → t.err = .noinv) := by
  obtain ⟨t, e, -, hok, hno⟩ := inv_writes_inverse_or_noinv h m rep rd ra
  refine ⟨t, e, ?_⟩
  by_cases hinv : Invertible s.params.n (modsel s.params m) (s.reg ra)
  · have herr : t.err = .ok := (hok hinv).1.err
    simp [herr, hinv]
  · have herr : t.err = .noinv := (hno hinv).1.err
    simp [herr, hinv]

/-- `x - 1` divides `x^N - 1`, so a polynomial whose value at 1 is 0 modulo m is not coprime to it (R158). -/
theorem not_invertible_of_dvd_coef_sum {n m : Nat} (hn : 1 ≤ n) (hm : 2 ≤ m) {a : Poly}
    (hsum : (m : Int) ∣ ∑ i ∈ Finset.range n, coef a i) : ¬Invertible n m a := by
  rw [invertible_iff_isCoprime hn hm]
  rintro ⟨g, k, hgk⟩
  have : Fact (1 < m) := ⟨hm⟩
  have hcyc : (cycPoly n (ZMod m)).eval 1 = 0 := by simp [cycPoly]
  have ha : (polyIn n (ZMod m) a).eval 1 = 0 := by
    rw [← ZMod.intCast_zmod_eq_zero_iff_dvd] at hsum
    simpa [polyIn, polyFn, eval_finsetSum] using hsum
  have hone := congrArg (eval 1) hgk
  simp [ha, hcyc] at hone

/-- INV of a source without an inverse completes with NOINV and writes nothing (60_exceptions.md R172). -/
theorem inv_noinv_of_not_invertible {s : State} (h : s.params.Legal) {m : MSel} (rep : Rep) (rd : Reg) {ra : Reg}
    (hnone : ¬Invertible s.params.n (modsel s.params m) (s.reg ra)) :
    ∃ t, exec (.inv m rep rd ra) s = .next t ∧ t.err = .noinv ∧ SameRegs s t := by
  obtain ⟨t, e, -, -, hno⟩ := inv_writes_inverse_or_noinv h m rep rd ra
  obtain ⟨hcompleted, hregs⟩ := hno hnone
  exact ⟨t, e, hcompleted.err, hregs⟩

/-- Settles O59: with a coefficient sum that is 0 modulo P, or even, there is no inverse modulo P, or modulo Q. -/
theorem noInverseWhenCoefficientSumVanishes : Obligations.NoInverseWhenCoefficientSumVanishes := by
  intro s rep rd ra h
  refine ⟨fun hsum => inv_noinv_of_not_invertible (m := .p) h rep rd ?_,
    fun hsum => inv_noinv_of_not_invertible (m := .q) h rep rd ?_⟩
  · exact not_invertible_of_dvd_coef_sum h.one_le_n h.p_prime.two_le hsum
  · exact fun hinv => not_invertible_of_dvd_coef_sum h.one_le_n le_rfl hsum
      ((invertible_pow_two_iff h.one_le_n (two_le_qe h) _).mp hinv)

/-- Settles O55: modulo P the inverse exists exactly for a source coprime to x^N - 1, so not for one that is 0 modulo P. -/
theorem invModPExistsIffCoprime : Obligations.InvModPExistsIffCoprime := by
  intro s rep rd ra h
  have hiff := invertible_iff_isCoprime h.one_le_n h.p_prime.two_le (s.reg ra)
  obtain ⟨t, e, hok, hno⟩ := inv_code_iff_invertible h .p rep rd ra
  refine ⟨hiff, t, e, hok.trans hiff, hno, fun hzero => hno fun herr => ?_⟩
  have hsum := Finset.dvd_sum fun i hi => hzero i (Finset.mem_range.mp hi)
  exact not_invertible_of_dvd_coef_sum h.one_le_n h.p_prime.two_le hsum (hok.mp herr)

/-- Settles O56: an inverse modulo 2 lifts to one modulo Q, and modulo 2 it exists exactly for a source coprime to x^N - 1. -/
theorem invModQExistsIffCoprimeModTwo : Obligations.InvModQExistsIffCoprimeModTwo := by
  intro s rep rd ra h
  have hlift := invertible_pow_two_iff h.one_le_n (two_le_qe h) (s.reg ra)
  have hiff := invertible_iff_isCoprime h.one_le_n le_rfl (m := 2) (s.reg ra)
  obtain ⟨t, e, hok, hno⟩ := inv_code_iff_invertible h .q rep rd ra
  exact ⟨hlift, hiff, t, e, hok.trans (hlift.trans hiff), hno⟩

/-! ## The lifting schedule (R157) -/

/-- Settles O58: every good schedule, and INV's own, ends with a reduced inverse modulo Q, and there is only one. -/
theorem liftingScheduleIsFree : Obligations.LiftingScheduleIsFree := by
  intro n qe a b es hn hqe hb hes
  have hq : 2 ≤ 2 ^ qe := two_le_two_pow (Nat.le_of_succ_le hqe)
  have hinv : IsInverse n (2 ^ 1) a b := ((invPrime_spec (p := 2) hn (by norm_num) a).1 b hb).1
  have hlifted := liftSchedule_lifted hn a es 1 b le_rfl hqe hes hinv
  refine ⟨hlifted.1, fun b' hb' => lifted_unique hn hq ?_ hlifted, ?_⟩
  · exact ⟨(isInverse_reducePoly hn hq a b' .nonneg).mpr hb', b', rfl⟩
  · have hsome : invPow2 n qe a = some (liftLoop n (2 ^ qe) a qe 2 b) := by rw [invPow2, hb]
    rw [hsome, lifted_unique hn hq ((invPow2_spec hn hqe a).1 _ hsome) hlifted]

end Sys2Proof.Machine
end

section
/-! Errors, the completion interrupt and the absence of traps (60_exceptions.md): irq, the causes of an error response, and that
every event has a next state. -/

namespace Sys2Proof.Machine

/-! ## The completion interrupt (R175) -/

/-- A completion sets DONE whatever its code, so irq is what CTRL.IE lets through. -/
theorem irq_complete (c : Completion) (s : State) : irq (complete c s) = s.ie := by
  rw [irq, done_complete, ie_complete, Bool.and_true]

/-- Settles O28: a completion sets DONE, acceptance and the acknowledging write clear it, and the mask clears IE alone. -/
theorem irqIsLevelOfEnableAndDone : Obligations.IrqIsLevelOfEnableAndDone := by
  refine fun s => ⟨Bool.and_eq_true_iff, fun i t hexec => ?_, irq_complete .illegal s, fun v => irq_accept v s, ?_, ?_, ?_⟩
  · rw [exec_eq_complete] at hexec
    cases hexec
    exact ⟨done_complete _ s, irq_complete _ s⟩
  · have hdone : (writeStatus 0x00000002 s).done = false := Bool.and_false s.done
    rw [memWrite_status, irq, hdone, Bool.and_false]
  · have hie : (writeCtrl 0x00000000 s).ie = false := rfl
    rw [memWrite_ctrl, irq, hie, Bool.false_and]
  · rw [memWrite_ctrl, done_writeCtrl]

/-! ## The causes of an error response (R177) -/

/-- The registers below the windows: the read-only ones, CTRL, STATUS and CMD (10_state.md R40, R51). -/
theorem csr_readOnly_or_writable {a : Addr} (ha : a.toNat % 4 = 0) (hlow : a.toNat < 0x0024) :
    a ∈ readOnlyAddrs ∨ a = 0x014 ∨ a = 0x018 ∨ a = 0x01C := by
  have hword : ∀ k < 9, BitVec.ofNat 14 (4 * k) ∈ readOnlyAddrs ∨ BitVec.ofNat 14 (4 * k) = 0x014 ∨
      BitVec.ofNat 14 (4 * k) = 0x018 ∨ BitVec.ofNat 14 (4 * k) = 0x01C := by
    decide
  have h := hword (a.toNat / 4) (by omega)
  rwa [Nat.mul_div_cancel' (Nat.dvd_of_mod_eq_zero ha), BitVec.ofNat_toNat, BitVec.setWidth_eq] at h

/-- An access without a cause to refuse a read names a register, or a coefficient of an idle NRE. -/
theorem csr_or_idle_coef_of_not_readRefused {s : State} {a : Addr} (h : ¬ReadRefused s a) :
    (a.toNat % 4 = 0 ∧ a.toNat < 0x0024) ∨
    ∃ r i, i < 256 ∧ i < s.params.n ∧ a = windowAddr r i ∧ s.busy = false := by
  have ha : a.toNat % 4 = 0 := not_not.mp fun hmis => h (.misaligned hmis)
  have hmapped : ¬Unmapped s.params.n a := fun hu => h (.unmapped hu)
  by_cases hlow : a.toNat < 0x0024
  · exact .inl ⟨ha, hlow⟩
  · have hwin : InWindow a := by
      rw [Unmapped] at hmapped
      rw [InWindow]
      omega
    obtain ⟨r, i, h256, hn, e⟩ := exists_windowAddr_of_mapped ha hwin.1 hmapped
    exact .inr ⟨r, i, h256, hn, e, Bool.eq_false_iff.mpr fun hb => h (.busyWindow hwin hb)⟩

theorem memRead_ok_of_not_refused {s : State} {a : Addr} (h : ¬ReadRefused s a) : (memRead s a).2 = false := by
  obtain ⟨ha, hlow⟩ | ⟨r, i, h256, hn, rfl, hidle⟩ := csr_or_idle_coef_of_not_readRefused h
  · exact memRead_csr_ok s ha hlow
  · simp [memRead_window r h256 hn, hidle]

theorem memWrite_ok_of_not_refused {s : State} {a : Addr} {strb : Strobes} (h : ¬WriteRefused s a strb) (v : Word) :
    (memWrite s a strb v).2 = false := by
  obtain rfl : strb = 0b1111 := not_not.mp fun hstrb => h (.strobes hstrb)
  obtain ⟨ha, hlow⟩ | ⟨r, i, h256, hn, rfl, hidle⟩ := csr_or_idle_coef_of_not_readRefused fun hr => h (.asRead hr)
  · obtain hro | rfl | rfl | rfl := csr_readOnly_or_writable ha hlow
    · exact absurd (.readOnly hro) h
    · rw [memWrite_ctrl]
    · rw [memWrite_status]
    · rw [memWrite_cmd_idle (Bool.eq_false_iff.mpr fun hb => h (.busyCmd rfl hb))]
  · rw [memWrite_window_idle r v h256 hn hidle]

/-- A read gets an error response exactly for the causes of R177. -/
theorem memRead_err_iff (s : State) (a : Addr) : (memRead s a).2 = true ↔ ReadRefused s a := by
  refine ⟨fun herr => by_contra fun h => ?_, fun h => by rw [memRead_of_refused h]⟩
  simp [memRead_ok_of_not_refused h] at herr

/-- A write gets an error response exactly for the causes of R177. -/
theorem memWrite_err_iff (s : State) (a : Addr) (strb : Strobes) (v : Word) :
    (memWrite s a strb v).2 = true ↔ WriteRefused s a strb := by
  refine ⟨fun herr => by_contra fun h => ?_, fun h => by rw [memWrite_of_refused h]⟩
  simp [memWrite_ok_of_not_refused h] at herr

theorem readRefused_iff (s : State) (a : Addr) :
    ReadRefused s a ↔ a.toNat % 4 ≠ 0 ∨ Unmapped s.params.n a ∨ (InWindow a ∧ s.busy = true) := by
  constructor
  · rintro (h | h | ⟨hw, hb⟩)
    · exact .inl h
    · exact .inr (.inl h)
    · exact .inr (.inr ⟨hw, hb⟩)
  · rintro (h | h | ⟨hw, hb⟩)
    · exact .misaligned h
    · exact .unmapped h
    · exact .busyWindow hw hb

theorem writeRefused_iff (s : State) (a : Addr) (strb : Strobes) :
    WriteRefused s a strb ↔ (a.toNat % 4 ≠ 0 ∨ strb ≠ 0b1111) ∨ Unmapped s.params.n a ∨ a ∈ readOnlyAddrs ∨
      (InWindow a ∧ s.busy = true) ∨ (a = 0x01C ∧ s.busy = true) := by
  have hcauses : WriteRefused s a strb ↔
      ReadRefused s a ∨ strb ≠ 0b1111 ∨ a ∈ readOnlyAddrs ∨ (a = 0x01C ∧ s.busy = true) := by
    constructor
    · rintro (h | h | h | ⟨ha, hb⟩)
      · exact .inl h
      · exact .inr (.inl h)
      · exact .inr (.inr (.inl h))
      · exact .inr (.inr (.inr ⟨ha, hb⟩))
    · rintro (h | h | h | ⟨ha, hb⟩)
      · exact .asRead h
      · exact .strobes h
      · exact .readOnly h
      · exact .busyCmd ha hb
  rw [hcauses, readRefused_iff]
  tauto

/-- Settles O35: the causes of refusal are exactly the five of R177, and a refused access answers 0 and changes nothing. -/
theorem errorResponsesHaveFiveCauses : Obligations.ErrorResponsesHaveFiveCauses := by
  refine fun s a strb v => ⟨(memRead_err_iff s a).trans (readRefused_iff s a),
    (memWrite_err_iff s a strb v).trans (writeRefused_iff s a strb), fun herr => ?_, fun herr => ?_⟩
  · rw [memRead_of_refused ((memRead_err_iff s a).mp herr)]
  · rw [memWrite_of_refused ((memWrite_err_iff s a strb v).mp herr)]

/-! ## No traps (R178) -/

/-- Settles O12: the completion step, an idle turn, a transaction and reset all answer a next state, and so does every command. -/
theorem nothingEverStops : Obligations.NothingEverStops := by
  refine ⟨fun s => ?_, fun i s => ⟨_, exec_eq_complete i s⟩⟩
  obtain ⟨-, -, e⟩ | ⟨-, -, e⟩ | ⟨_, _, -, e⟩ | ⟨_, -, e⟩ := step_cases s
  · obtain ⟨c, hrun, -⟩ := runCommand_cases s.turn
    exact ⟨complete c s.turn, e.trans hrun⟩
  · exact ⟨_, e⟩
  · exact ⟨_, e⟩
  · exact ⟨_, e⟩

end Sys2Proof.Machine
end

section
/-! Reset (70_reset_and_hazards.md): the values it gives every state element, that a command in flight leaves nothing behind,
and that the state after it is a legal NRE's. -/

namespace Sys2Proof.Machine

/-! ## The registers and the control words after reset (R190) -/

theorem reg_resetWith_allZero (c : Params) (r : Reg) :
    ((State.resetWith c).reg r).length = c.n ∧ ∀ i, coef ((State.resetWith c).reg r) i = 0 := by
  rw [reg_resetWith]
  exact ⟨List.length_replicate, coef_replicate_zero c.n⟩

theorem irq_resetWith (c : Params) : irq (State.resetWith c) = false := rfl

theorem ctrlWord_resetWith (c : Params) : ctrlWord (State.resetWith c) = 0 := rfl

theorem statusWord_resetWith (c : Params) : statusWord (State.resetWith c) = 0 :=
  BitVec.eq_of_toNat_eq (statusWord_toNat (State.resetWith c))

/-- N fits its nine bits (R5, 10_state.md R42). -/
theorem cfgNWord_eq {c : Params} (h : c.Legal) : cfgNWord c = BitVec.ofNat 32 c.n :=
  BitVec.eq_of_toNat_eq <| by
    have := h.n_le
    rw [cfgNWord_toNat h, BitVec.toNat_ofNat]
    omega

/-- CW fits its six bits, and 8 registers above it are 0x800 (R8, 10_state.md R45). -/
theorem cfgWWord_eq {c : Params} (h : c.Legal) : cfgWWord c = BitVec.ofNat 32 (c.cw + 0x800) :=
  BitVec.eq_of_toNat_eq <| by
    have := h.cw_le
    rw [cfgWWord_toNat h, BitVec.toNat_ofNat]
    omega

/-! ## Reset (R190, R191) -/

/-- Settles O14: the reset event leads to the reset state of the same NRE, whatever the state before held. -/
theorem resetAbandonsCommand : Obligations.ResetAbandonsCommand := fun s rest hreset =>
  ⟨(State.resetWith s.params).advance rest none, step_reset hreset, rfl, rfl, rfl, rfl, rfl, rfl, fun r =>
    ⟨tag_resetWith s.params r, reg_resetWith_allZero s.params r⟩⟩

/-- Settles O13, element by element, then register by register of the port; the parameters fit their CFG fields. -/
theorem resetValues : Obligations.ResetValues := by
  intro c hl t
  refine ⟨rfl, reg_resetWith_allZero c, tag_resetWith c, ie_resetWith c, busy_resetWith c, done_resetWith c, err_resetWith c,
    cmd_resetWith c, irq_resetWith c, memRead_id t, ?_, memRead_cfgP t, memRead_cfgQ t, ?_, ?_, ?_, memRead_cmd t, ?_⟩
  · rw [memRead_cfgN, params_resetWith, cfgNWord_eq hl]
  · rw [memRead_cfgW, params_resetWith, cfgWWord_eq hl]
  · rw [memRead_ctrl, ctrlWord_resetWith]
  · rw [memRead_status, statusWord_resetWith]
  · rw [memRead_tags, tagsWord_resetWith]

/-! ## The invariants after reset -/

/-- The reference set of 00_scope.md (D2, D3) is an NRE (R10). Proved here, so that no proof rests on a test. -/
theorem reference_legal : Params.reference.Legal :=
  ⟨by decide, by decide, Nat.prime_three, rfl, by decide, by decide, by decide, by decide⟩

/-- Settles O15: the zero polynomials are in range, and a RAW tag claims nothing. -/
theorem resetMeetsInvariants : Obligations.ResetMeetsInvariants :=
  ⟨fun c hl => ⟨inv_resetWith hl, tagsTruthful_resetWith c⟩, reference_legal⟩

end Sys2Proof.Machine
end
